-- ==== Sys2Proof/Word.lean ====
section
/-! DEFINITION. The word types of the core: every one is the unsigned value of a fixed width that the spec gives
(00_scope.md R4, R7; 30_encoding.md R48). -/

namespace Sys2Proof

/-- A memory cell, a general register, a timer, the field `kk`: 8 bits (R4, R48). -/
abbrev Byte := BitVec 8

/-- pc, I and a stack slot: 16 bits (R4). -/
abbrev Word := BitVec 16

/-- An opcode: 16 bits (R44). -/
abbrev Opcode := BitVec 16

/-- The fields `x`, `y` (register indices) and `n` (a count): 4 bits (R6, R48). -/
abbrev Nibble := BitVec 4

/-- The field `nnn`, an absolute address: 12 bits (R48). -/
abbrev Addr := BitVec 12

end Sys2Proof
end

