-- ==== Sys2Proof/Syntax.lean ====
section
/-! DEFINITION. The decoded instruction: the record `kind, n, nnn, x, y, kk` of 30_encoding.md R45, with the kind as
the constructor and the five fields as its argument. -/

namespace Sys2Proof

/-- The five decoded fields. They are present in every instruction, even where its kind does not use them (R47). -/
structure Fields where
  /-- `opcode[3:0]` -/
  n : Nibble
  /-- `opcode[11:0]` -/
  nnn : Addr
  /-- `opcode[11:8]` -/
  x : Nibble
  /-- `opcode[7:4]` -/
  y : Nibble
  /-- `opcode[7:0]` -/
  kk : Byte
deriving DecidableEq, Repr

/-- The 27 instruction kinds, in the order of R50. -/
inductive Instr where
  /-- CLS `00E0` -/
  | cls (f : Fields)
  /-- RET `00EE` -/
  | ret (f : Fields)
  /-- JP `1nnn` -/
  | jp (f : Fields)
  /-- CALL `2nnn` -/
  | call (f : Fields)
  /-- SE_Vx_byte `3xkk` -/
  | seVxByte (f : Fields)
  /-- SNE_Vx_byte `4xkk` -/
  | sneVxByte (f : Fields)
  /-- SE_Vx_Vy `5xy?` -/
  | seVxVy (f : Fields)
  /-- LD_Vx_byte `6xkk` -/
  | ldVxByte (f : Fields)
  /-- ADD_Vx_byte `7xkk` -/
  | addVxByte (f : Fields)
  /-- LD_Vx_Vy `8xy0` -/
  | ldVxVy (f : Fields)
  /-- OR_Vx_Vy `8xy1` -/
  | orVxVy (f : Fields)
  /-- AND_Vx_Vy `8xy2` -/
  | andVxVy (f : Fields)
  /-- XOR_Vx_Vy `8xy3` -/
  | xorVxVy (f : Fields)
  /-- ADD_Vx_Vy `8xy4` -/
  | addVxVy (f : Fields)
  /-- SUB_Vx_Vy `8xy5` -/
  | subVxVy (f : Fields)
  /-- SHR_Vx_Vy `8xy6` -/
  | shrVxVy (f : Fields)
  /-- SUBN_Vx_Vy `8xy7` -/
  | subnVxVy (f : Fields)
  /-- SHL_Vx_Vy `8xy8` -/
  | shlVxVy (f : Fields)
  /-- SNE_Vx_Vy `9xy?` -/
  | sneVxVy (f : Fields)
  /-- LD_I `Annn` -/
  | ldI (f : Fields)
  /-- JP_V0 `Bnnn` -/
  | jpV0 (f : Fields)
  /-- RND_Vx_byte `Cxkk` -/
  | rndVxByte (f : Fields)
  /-- DRW_Vx_Vy `Dxyn` -/
  | drwVxVy (f : Fields)
  /-- LD_Vx_DT `Fx07` -/
  | ldVxDt (f : Fields)
  /-- LD_DT_Vx `Fx15` -/
  | ldDtVx (f : Fields)
  /-- LD_ST_Vx `Fx18` -/
  | ldStVx (f : Fields)
  /-- ADD_I_Vx `Fx1E` -/
  | addIVx (f : Fields)
deriving DecidableEq, Repr

/-- The fields of a decoded instruction, whatever its kind (R45, R47). -/
def Instr.fields : Instr → Fields
  | .cls f | .ret f | .jp f | .call f | .seVxByte f | .sneVxByte f | .seVxVy f | .ldVxByte f | .addVxByte f
  | .ldVxVy f | .orVxVy f | .andVxVy f | .xorVxVy f | .addVxVy f | .subVxVy f | .shrVxVy f | .subnVxVy f
  | .shlVxVy f | .sneVxVy f | .ldI f | .jpV0 f | .rndVxByte f | .drwVxVy f | .ldVxDt f | .ldDtVx f | .ldStVx f
  | .addIVx f => f

end Sys2Proof
end

