-- ==== Sys2Proof/WellFormed.lean ====
section
/-! DEFINITION. Which decoded records are instructions: the fields overlap as slices of one opcode do, and the bits
that the kind fixes hold what it fixes. -/

namespace Sys2Proof

/-- The fields are slices of one opcode: nnn = x*256 + kk and kk = y*16 + n (30_encoding.md R48). -/
def Fields.overlap (f : Fields) : Bool :=
  f.nnn == f.x ++ f.kk && f.kk == f.y ++ f.n

/-- The bits of the fields that the kind fixes (30_encoding.md R50). A kind selected by its top nibble alone fixes
none of them, SE_Vx_Vy and SNE_Vx_Vy included (R54). -/
def Instr.fixedBits : Instr → Bool
  | .cls f => f.nnn == 0x0E0
  | .ret f => f.nnn == 0x0EE
  | .ldVxVy f => f.n == 0x0
  | .orVxVy f => f.n == 0x1
  | .andVxVy f => f.n == 0x2
  | .xorVxVy f => f.n == 0x3
  | .addVxVy f => f.n == 0x4
  | .subVxVy f => f.n == 0x5
  | .shrVxVy f => f.n == 0x6
  | .subnVxVy f => f.n == 0x7
  | .shlVxVy f => f.n == 0x8
  | .ldVxDt f => f.kk == 0x07
  | .ldDtVx f => f.kk == 0x15
  | .ldStVx f => f.kk == 0x18
  | .addIVx f => f.kk == 0x1E
  | .jp _ | .call _ | .seVxByte _ | .sneVxByte _ | .seVxVy _ | .ldVxByte _ | .addVxByte _ | .sneVxVy _ | .ldI _
  | .jpV0 _ | .rndVxByte _ | .drwVxVy _ => true

/-- A well-formed instruction: a record that some opcode decodes to. -/
def Instr.wellFormed (i : Instr) : Bool :=
  i.fields.overlap && i.fixedBits

end Sys2Proof
end

