-- ==== Sys2Proof/Decode.lean ====
section
/-! DEFINITION. The Decoder (30_encoding.md R45 to R58): the fields of an opcode, the ordered table of mask and match
pairs, the first-match search, and the encoder that inverts it. -/

namespace Sys2Proof

/-- Field extraction, the same for every opcode (R47, R48). -/
def fieldsOf (op : Opcode) : Fields where
  n := op.extractLsb' 0 4
  nnn := op.extractLsb' 0 12
  x := op.extractLsb' 8 4
  y := op.extractLsb' 4 4
  kk := op.extractLsb' 0 8

/-- Why bytes do not decode. -/
inductive DecodeReject where
  /-- DecodeError: the opcode matches no row; it carries the raw opcode (R57). -/
  | unrecognised (opcode : Opcode)
  /-- Fewer than the two bytes of an opcode were given (R44). -/
  | tooShort (given : Nat)
deriving DecidableEq, Repr

/-- A row of the opcode map (R50): an opcode selects it when `opcode AND mask = pat`. -/
structure Row where
  mask : Opcode
  pat : Opcode
  make : Fields → Instr

/-- The row's test (R50). -/
def Row.selects (r : Row) (op : Opcode) : Bool :=
  op &&& r.mask == r.pat

/-- The opcode map, in the order of R50. -/
def opcodeTable : List Row :=
  [⟨0xFFFF, 0x00E0, .cls⟩, ⟨0xFFFF, 0x00EE, .ret⟩, ⟨0xF000, 0x1000, .jp⟩, ⟨0xF000, 0x2000, .call⟩,
   ⟨0xF000, 0x3000, .seVxByte⟩, ⟨0xF000, 0x4000, .sneVxByte⟩, ⟨0xF000, 0x5000, .seVxVy⟩,
   ⟨0xF000, 0x6000, .ldVxByte⟩, ⟨0xF000, 0x7000, .addVxByte⟩] ++
  [⟨0xF00F, 0x8000, .ldVxVy⟩, ⟨0xF00F, 0x8001, .orVxVy⟩, ⟨0xF00F, 0x8002, .andVxVy⟩, ⟨0xF00F, 0x8003, .xorVxVy⟩,
   ⟨0xF00F, 0x8004, .addVxVy⟩, ⟨0xF00F, 0x8005, .subVxVy⟩, ⟨0xF00F, 0x8006, .shrVxVy⟩,
   ⟨0xF00F, 0x8007, .subnVxVy⟩, ⟨0xF00F, 0x8008, .shlVxVy⟩] ++
  [⟨0xF000, 0x9000, .sneVxVy⟩, ⟨0xF000, 0xA000, .ldI⟩, ⟨0xF000, 0xB000, .jpV0⟩, ⟨0xF000, 0xC000, .rndVxByte⟩,
   ⟨0xF000, 0xD000, .drwVxVy⟩, ⟨0xF0FF, 0xF007, .ldVxDt⟩, ⟨0xF0FF, 0xF015, .ldDtVx⟩, ⟨0xF0FF, 0xF018, .ldStVx⟩,
   ⟨0xF0FF, 0xF01E, .addIVx⟩]

/-- First match wins; no match is DecodeError with the raw opcode (R51, R57). -/
def firstMatch (op : Opcode) : List Row → Except DecodeReject Instr
  | [] => .error (.unrecognised op)
  | r :: rs => if r.selects op then .ok (r.make (fieldsOf op)) else firstMatch op rs

/-- The Decoder, a pure function of the opcode, total on 0x0000..0xFFFF (R45, R51). -/
def decodeOpcode (op : Opcode) : Except DecodeReject Instr :=
  firstMatch op opcodeTable

/-- An opcode from its two bytes in memory, the byte at the lower address first: big-endian (20_memory.md R33,
PRESUMED by the spec's decision D1, log 8). -/
def opcodeOfBytes (hi lo : Byte) : Opcode :=
  hi ++ lo

/-- The Decoder on a list of bytes in memory order: the instruction and the bytes after it (R44). -/
def decodeBytes : List Byte → Except DecodeReject (Instr × List Byte)
  | hi :: lo :: rest =>
    match decodeOpcode (opcodeOfBytes hi lo) with
    | .ok i => .ok (i, rest)
    | .error e => .error e
  | bytes => .error (.tooShort bytes.length)

/-- The two bytes of an opcode in memory order (R33). -/
def bytesOfOpcode (op : Opcode) : List Byte :=
  [op.extractLsb' 8 8, op.extractLsb' 0 8]

/-- The opcode whose low `nbits` bits are those of `w`, every bit above them 0. -/
def opcodeOfTableWord (nbits w : Nat) : Opcode :=
  BitVec.ofNat 16 (w % 2 ^ nbits)

/-- The instruction the Decoder reads from an opcode-table word: the word's bytes laid out in memory order and given
to the Decoder. -/
def decodeTableWord (nbits w : Nat) : Option Instr :=
  match decodeBytes (bytesOfOpcode (opcodeOfTableWord nbits w)) with
  | .ok (i, _) => some i
  | .error _ => none

/-! ### The encoder: one function per format of R46 -/

/-- Format `F_FIX`: top nibble 0 and twelve fixed bits. -/
def encodeFix (low : Addr) : Opcode := 0x0#4 ++ low

/-- Format `F_NNN`. -/
def encodeNnn (op : Nibble) (f : Fields) : Opcode := op ++ f.nnn

/-- Format `F_XKK`. -/
def encodeXkk (op : Nibble) (f : Fields) : Opcode := op ++ f.x ++ f.kk

/-- Format `F_XY` with the sub-operation, or the ignored bits, in bits 3:0; format `F_XYN` with the height there. -/
def encodeXyn (op : Nibble) (f : Fields) (low : Nibble) : Opcode := op ++ f.x ++ f.y ++ low

/-- Format `F_X`. -/
def encodeX (f : Fields) (low : Byte) : Opcode := 0xF#4 ++ f.x ++ low

/-- The opcode of an instruction (R46, R50). -/
def encode : Instr → Opcode
  | .cls _ => encodeFix 0x0E0
  | .ret _ => encodeFix 0x0EE
  | .jp f => encodeNnn 0x1 f
  | .call f => encodeNnn 0x2 f
  | .seVxByte f => encodeXkk 0x3 f
  | .sneVxByte f => encodeXkk 0x4 f
  | .seVxVy f => encodeXyn 0x5 f f.n
  | .ldVxByte f => encodeXkk 0x6 f
  | .addVxByte f => encodeXkk 0x7 f
  | .ldVxVy f => encodeXyn 0x8 f 0x0
  | .orVxVy f => encodeXyn 0x8 f 0x1
  | .andVxVy f => encodeXyn 0x8 f 0x2
  | .xorVxVy f => encodeXyn 0x8 f 0x3
  | .addVxVy f => encodeXyn 0x8 f 0x4
  | .subVxVy f => encodeXyn 0x8 f 0x5
  | .shrVxVy f => encodeXyn 0x8 f 0x6
  | .subnVxVy f => encodeXyn 0x8 f 0x7
  | .shlVxVy f => encodeXyn 0x8 f 0x8
  | .sneVxVy f => encodeXyn 0x9 f f.n
  | .ldI f => encodeNnn 0xA f
  | .jpV0 f => encodeNnn 0xB f
  | .rndVxByte f => encodeXkk 0xC f
  | .drwVxVy f => encodeXyn 0xD f f.n
  | .ldVxDt f => encodeX f 0x07
  | .ldDtVx f => encodeX f 0x15
  | .ldStVx f => encodeX f 0x18
  | .addIVx f => encodeX f 0x1E

end Sys2Proof
end

