-- ==== Sys2Proof/Config.lean ====
section
/-! DEFINITION. What is fixed for one machine and not changed by running it: the constant sizes (00_scope.md R4), the
named parameters (R5), and the free value of the random draw. -/

namespace Sys2Proof.Config

/-- Memory size: 4096 cells, addresses 0x000 to 0xFFF (R4, R30). -/
abbrev memSize : Nat := 0x1000

/-- SCREEN_WIDTH (R4, R23). -/
abbrev screenWidth : Nat := 64

/-- SCREEN_HEIGHT (R4, R23). -/
abbrev screenHeight : Nat := 32

/-- The number of display cells, 64 × 32 (R23). -/
abbrev screenCells : Nat := 2048

/-- RandByte (R5, R27, R84): the byte drawn by the draw with the given number. A FREE VALUE: it has no body, so
nothing can be proved of it but that it is a byte, and a claim holds whatever it is (log 3). -/
opaque randByte : Nat → Byte

end Sys2Proof.Config

namespace Sys2Proof

/-- The two values of ALU_VF_DEST (R5, R89): which write VF keeps when it is the destination of a flag-writing
ALU instruction. -/
inductive VfDest where
  | result
  | flag
deriving DecidableEq, Repr

/-- The parameters of R5 that a running machine consults. FONT and ROM are arguments of the boot operations and
RandByte is `Config.randByte`. -/
structure Params where
  /-- JP_V0_FALLTHROUGH: whether JP_V0 also performs the body of RND_Vx_byte (R76). -/
  jpV0Fallthrough : Bool
  /-- ALU_VF_DEST (R89). -/
  aluVfDest : VfDest
  /-- HOST_TIMER_WRITES: whether the host may rewrite DT and ST between steps (R118). -/
  hostTimerWrites : Bool
deriving DecidableEq, Repr

end Sys2Proof
end

