-- ==== Sys2Proof/Machine/Defaults.lean ====
section
/-! DEFINITION. The values of the parameters in the machine as created: the spec's defaults (00_scope.md R5). -/

namespace Sys2Proof.Machine

/-- The spec's defaults: JP_V0_FALLTHROUGH = false (92_eei_decisions.md D11), ALU_VF_DEST = result (D28),
HOST_TIMER_WRITES = true (D17). -/
def defaultParams : Params where
  jpV0Fallthrough := false
  aluVfDest := .result
  hostTimerWrites := true

end Sys2Proof.Machine
end

