-- ==== Sys2Proof/Machine/State.lean ====
section
/-! DEFINITION. The machine state (10_state.md R11), the fault records (60_exceptions.md R107), the reasons a step
can stop, and the creation state (10_state.md R29). -/

namespace Sys2Proof.Machine

/-- A display cell: unset, 0 or 1 (10_state.md R23). -/
inductive Pixel where
  | unset
  | zero
  | one
deriving DecidableEq, Repr

/-- The display buffer, 32 rows of 64 cells; the cell of index y*64 + x is column x of row y (10_state.md R23). -/
abbrev Display := Vector (Vector Pixel 64) 32

/-- `Mem`: the cells that do not hold what an unlisted address reads as, by strictly rising address
(20_memory.md R30; log 25). -/
abbrev Memory := List Host.Cell

/-- A fault of the core with the information it records (60_exceptions.md R107). Code 3, ExecutionError, has no
constructor: it cannot occur (R111). -/
inductive CoreFault where
  /-- Code 1: fetch with `pc + 1 > 0xFFF` (R65). -/
  | fetchOutOfRange (pc : Word)
  /-- Code 2: the opcode matches no row (R57). -/
  | decodeError (opcode : Opcode)
  /-- Code 4: CALL with SP = 15 (R75). -/
  | stackOverflow (pc : Word) (sp : Fin 16)
  /-- Code 5: RET with SP = 0 (R73). -/
  | stackUnderflow (pc : Word)
  /-- Code 6: ADD_I_Vx with a sum above 0xFFFF (R88). -/
  | iOverflow (pc : Word) (i : Word) (vx : Byte)
  /-- Code 7: DRW with a sprite byte beyond 0xFFF (R102). -/
  | spriteOutOfRange (pc : Word) (i : Word) (n : Nibble)
deriving DecidableEq, Repr

/-- `status` (10_state.md R28). -/
inductive Status where
  | running
  | faulted (e : CoreFault)
deriving DecidableEq, Repr

/-- The machine state. The fields down to `status` are the spec's (10_state.md R11); `skip`, `draws` and `params` are
the model's own (logs 2, 3, 4). -/
structure State where
  /-- `Mem` (20_memory.md R30). -/
  mem : Memory
  /-- `V0` to `VF` (10_state.md R12). -/
  v : Vector Byte 16
  /-- The program counter (R15). -/
  pc : Word
  /-- `I` (R18). -/
  i : Word
  /-- `SP`, the index 0..15 of a stack slot (R19, log 24). -/
  sp : Fin 16
  /-- `Stack[0..15]` (R20). -/
  stack : Vector Word 16
  /-- The delay timer (R21). -/
  dt : Byte
  /-- The sound timer (R21). -/
  st : Byte
  /-- The display buffer (R23). -/
  disp : Display
  /-- Running, or faulted with the fault (R28). -/
  status : Status
  /-- The step-local skip request: false whenever no step is under way (R25, R68; log 2). -/
  skip : Bool
  /-- How many random bytes have been drawn (log 3). -/
  draws : Nat
  /-- The named parameters, changed by no instruction (R5; log 4). -/
  params : Params
deriving DecidableEq, Repr

/-- Why a step stops the machine. -/
inductive Fault where
  /-- Raised by `step` alone, when `status` is already faulted(e): a faulted machine takes no further step
  (60_exceptions.md R109). Safe: nothing is claimed of the machine beyond it. -/
  | halted (e : CoreFault)
deriving DecidableEq, Repr

/-- Why there is no meaning for a request. -/
inductive Refusal where
  /-- Raised by `exec` for an instruction that has no meaning yet; no arm does so. Safe. -/
  | notModelled (mnemonic : String)
  /-- Raised by `loadFont`: the table reaches 0x200, so there is no launch (70_reset_and_hazards.md R128). Safe. -/
  | fontTooLong
  /-- Raised by `loadRom`: the image passes 0xFFF, so there is no launch (70_reset_and_hazards.md R128). Safe. -/
  | romTooLong
  /-- Raised by `hostWriteTimers`: HOST_TIMER_WRITES is false, so the host has no such move (60_exceptions.md R118).
  Safe. -/
  | hostTimersClosed
deriving DecidableEq, Repr

/-- What a meaning or a step answers. -/
abbrev Result := Host.Outcome State Fault Refusal

/-- The creation state (10_state.md R29, 70_reset_and_hazards.md R123): every value is the spec's, but for the
model's own `draws` (DESIGN CHOICE, log 3) and `params` (the spec's defaults, log 4). -/
def State.reset : State where
  mem := []
  v := Vector.replicate 16 0x00
  pc := 0x200
  i := 0x0000
  sp := 0
  stack := Vector.replicate 16 0x0000
  dt := 0x00
  st := 0x00
  disp := Vector.replicate 32 (Vector.replicate 64 .unset)
  status := .running
  skip := false
  draws := 0
  params := defaultParams

end Sys2Proof.Machine
end

