-- ==== Sys2Proof/Machine/Ops.lean ====
section
/-! DEFINITION. The operations shared by the meanings, over memory, registers, the display, the random draw, the
fetch, the advance, and taking a fault. -/

namespace Sys2Proof.Machine

/-! ### Memory (20_memory.md) -/

/-- What an unlisted address reads as: every cell is 0x00 at creation (10_state.md R29). -/
def unlistedByte : Byte := 0x00

/-- The byte at an address (MemRead, 00_scope.md R8). A caller checks the range first (20_memory.md R36). -/
def Memory.read : Memory → Nat → Byte
  | [], _ => unlistedByte
  | (k, b) :: rest, a => if k = a then b else Memory.read rest a

/-- MemWrite of one byte (00_scope.md R8), keeping the canonical form. Only the host's install operations call it
(20_memory.md R31). -/
def Memory.write : Memory → Nat → Byte → Memory
  | [], a, b => if b = unlistedByte then [] else [(a, b)]
  | (k, c) :: rest, a, b =>
    if k < a then (k, c) :: Memory.write rest a b
    else if k = a then (if b = unlistedByte then rest else (a, b) :: rest)
    else if b = unlistedByte then (k, c) :: rest
    else (a, b) :: (k, c) :: rest

/-- The canonical form from an address on: strictly rising addresses of the address space, no entry equal to what an
unlisted address reads as. -/
def Memory.wfFrom : Nat → Memory → Bool
  | _, [] => true
  | lo, (a, b) :: rest => decide (lo ≤ a) && decide (a < Config.memSize) && b != unlistedByte && Memory.wfFrom (a + 1) rest

/-- The canonical form of memory (log 25). -/
def Memory.wf (m : Memory) : Bool :=
  Memory.wfFrom 0 m

/-- Stores bytes at consecutive addresses, each reduced modulo 256 (70_reset_and_hazards.md R126, R127). -/
def Memory.install : Memory → Nat → List Nat → Memory
  | m, _, [] => m
  | m, base, b :: bs => Memory.install (Memory.write m base (BitVec.ofNat 8 b)) (base + 1) bs

/-! ### General registers (10_state.md R12, R13) -/

/-- `V[r]`. -/
def State.getV (s : State) (r : Nibble) : Byte :=
  s.v[r.toNat]'r.isLt

/-- `V[r] <- b`. -/
def State.setV (s : State) (r : Nibble) (b : Byte) : State :=
  { s with v := s.v.set r.toNat b r.isLt }

/-! ### The stack (10_state.md R20) -/

/-- `Stack[k]`. -/
def State.slot (s : State) (k : Fin 16) : Word :=
  s.stack[k.val]

/-- `Stack[k] <- w`. -/
def State.setSlot (s : State) (k : Fin 16) (w : Word) : State :=
  { s with stack := s.stack.set k.val w k.isLt }

/-! ### The special registers (10_state.md R15, R18 to R21) -/

/-- `pc <- w`. -/
def State.setPc (s : State) (w : Word) : State :=
  { s with pc := w }

/-- `I <- w`. -/
def State.setI (s : State) (w : Word) : State :=
  { s with i := w }

/-- `SP <- k`. -/
def State.setSp (s : State) (k : Fin 16) : State :=
  { s with sp := k }

/-- `DT <- b`. -/
def State.setDt (s : State) (b : Byte) : State :=
  { s with dt := b }

/-- `ST <- b`. -/
def State.setSt (s : State) (b : Byte) : State :=
  { s with st := b }

/-! ### The display (10_state.md R23, 45_display.md R100) -/

/-- The whole display buffer is replaced. -/
def State.setDisp (s : State) (d : Display) : State :=
  { s with disp := d }

/-- `Disp[idx]`, for idx < 2048. -/
def Display.cell (d : Display) (idx : Nat) : Pixel :=
  if h : idx / 64 < 32 then (d[idx / 64])[idx % 64]'(Nat.mod_lt _ (by decide)) else .unset

/-- `Disp[idx] <- p`, for idx < 2048. -/
def Display.put (d : Display) (idx : Nat) (p : Pixel) : Display :=
  if h : idx / 64 < 32 then d.set (idx / 64) ((d[idx / 64]).set (idx % 64) p (Nat.mod_lt _ (by decide))) h else d

/-- The display with every cell unset (R101). -/
def blankDisplay : Display :=
  Vector.replicate 32 (Vector.replicate 64 .unset)

/-- lit(c) = (c = 1) (10_state.md R23, 45_display.md R105); it is also the old pixel's bit in drawing, bitval (R100). -/
def Pixel.lit : Pixel → Bool
  | .one => true
  | .zero | .unset => false

/-- The cell value of a drawn bit, 0 or 1, never unset (R102). -/
def Pixel.ofBit (b : Bool) : Pixel :=
  if b then .one else .zero

/-! ### Taking a fault (60_exceptions.md R106 to R109) -/

/-- The machine with the fault recorded, and nothing else written: pc still addresses the faulting instruction
(R108). -/
def State.faultedWith (s : State) (e : CoreFault) : State :=
  { s with status := .faulted e }

/-- `raise E(info)` (00_scope.md R8): the one way a fault is taken. There is no handler, no saved state and no return
(R113, R114). -/
def raise (e : CoreFault) (s : State) : Result :=
  .next (s.faultedWith e)

/-- The code of a fault (R107). -/
def CoreFault.code : CoreFault → Nat
  | .fetchOutOfRange _ => 1
  | .decodeError _ => 2
  | .stackOverflow _ _ => 4
  | .stackUnderflow _ => 5
  | .iOverflow _ _ _ => 6
  | .spriteOutOfRange _ _ _ => 7

/-! ### The random draw (10_state.md R27) -/

/-- The byte the next draw gives: a free value (log 3). -/
def State.nextRandom (s : State) : Byte :=
  Config.randByte s.draws

/-- The state after one draw, so that the next draw is a fresh one. -/
def State.afterDraw (s : State) : State :=
  { s with draws := s.draws + 1 }

/-- The body of RND_Vx_byte: `r <- RandByte(); V[x] <- r AND kk` (43_loads_and_immediates.md R84). JP_V0 performs it
too when JP_V0_FALLTHROUGH is true (41_control_flow.md R76). -/
def State.randomInto (s : State) (x : Nibble) (kk : Byte) : State :=
  s.afterDraw.setV x (s.nextRandom &&& kk)

/-! ### The skip request, the fetch and the advance (40_step_cycle.md) -/

/-- `skip <- c` where the condition c holds, nothing where it does not (R68, R77 to R80). -/
def State.skipIf (s : State) (c : Bool) : State :=
  if c then { s with skip := true } else s

/-- `skip <- false`, at the start of every step's Execute stage (R68, R70). -/
def State.clearSkip (s : State) : State :=
  { s with skip := false }

/-- The opcode at pc, or none where `pc + 1 > 0xFFF` (R65). -/
def State.fetch (s : State) : Option Opcode :=
  if s.pc.toNat + 1 < Config.memSize then
    some (opcodeOfBytes (s.mem.read s.pc.toNat) (s.mem.read (s.pc.toNat + 1)))
  else none

/-- `pc <- (pc + 2 + (if skip then 2 else 0)) mod 65536`, consuming the skip request (R69). -/
def State.advance (s : State) : State :=
  { s with pc := s.pc + (if s.skip then 4 else 2), skip := false }

/-- The Stepper's advance, which does not happen where the Executor raised (R67). -/
def State.afterExecute (s : State) : State :=
  match s.status with
  | .running => s.advance
  | .faulted _ => s

/-- One cycle of the Stepper around an Executor (R70): no step from a faulted machine, then fetch, decode, execute
and advance, the first failing check ending the step (60_exceptions.md R112). -/
def cycle (execute : Instr → State → Result) (s : State) : Result :=
  match s.status with
  | .faulted e => .fault (.halted e)
  | .running =>
    match s.fetch with
    | none => raise (.fetchOutOfRange s.pc) s
    | some op =>
      match decodeOpcode op with
      | .error _ => raise (.decodeError op) s
      | .ok inst =>
        match execute inst s.clearSkip with
        | .next t => .next t.afterExecute
        | .fault r => .fault r
        | .refused r => .refused r

/-- The state in which the next fetch reads the opcode: its bytes at pc in memory order. A machine that would not
fetch at pc (it is faulted, or pc is beyond the last opcode) is first made to run from 0x200 (log 21). -/
def State.placeOpcode (s : State) (op : Opcode) : State :=
  let at_ : Word := if s.pc.toNat + 1 < Config.memSize then s.pc else 0x200
  { s with
    pc := at_
    status := .running
    mem := (s.mem.write at_.toNat (op.extractLsb' 8 8)).write (at_.toNat + 1) (op.extractLsb' 0 8) }

end Sys2Proof.Machine
end

