-- ==== Sys2Proof/Machine/Operands.lean ====
section
/-! DEFINITION. How each operand is formed: every operand is a decoded field, zero-extended, or the register or
register pair the rule names (30_encoding.md R48, R55). -/

namespace Sys2Proof.Machine

/-- The register V[x]. -/
def State.vx (s : State) (f : Fields) : Byte :=
  s.getV f.x

/-- The register V[y]. -/
def State.vy (s : State) (f : Fields) : Byte :=
  s.getV f.y

/-- nnn as an absolute address, zero-extended to the width of pc and I (R48). -/
def absolute (f : Fields) : Word :=
  f.nnn.setWidth 16

/-- V0 + nnn in full precision, 0 to 0x10FE (41_control_flow.md R76). -/
def State.v0Plus (s : State) (f : Fields) : Word :=
  (s.getV 0x0#4).setWidth 16 + absolute f

/-- I + V[x] in full precision (43_loads_and_immediates.md R88). -/
def State.iPlusVx (s : State) (f : Fields) : Nat :=
  s.i.toNat + (s.vx f).toNat

/-- The sprite's first column, V[x] mod 64 (45_display.md R102). -/
def State.startX (s : State) (f : Fields) : Nat :=
  (s.vx f).toNat % Config.screenWidth

/-- The sprite's first row, V[y] mod 32 (45_display.md R102). -/
def State.startY (s : State) (f : Fields) : Nat :=
  (s.vy f).toNat % Config.screenHeight

/-- Whether every byte I..I+n−1 of the sprite has a value; a sprite of height 0 reads none (45_display.md R102). -/
def State.spriteInMemory (s : State) (f : Fields) : Bool :=
  decide (f.n.toNat = 0) || decide (s.i.toNat + f.n.toNat - 1 < Config.memSize)

end Sys2Proof.Machine
end

