-- ==== Sys2Proof/Machine/Flags.lean ====
section
/-! DEFINITION. What the flag-writing instructions put into VF (10_state.md R24), and the order in which VF and the
result are written (44_alu.md R89). -/

namespace Sys2Proof.Machine

/-- A flag value: 1 or 0. -/
def flag (c : Bool) : Byte :=
  if c then 1 else 0

/-- ADD's carry: the full-precision sum exceeds 255 (44_alu.md R94). -/
def addFlag (a b : Byte) : Byte :=
  flag (decide (255 < a.toNat + b.toNat))

/-- SUB's and SUBN's flag: strictly greater, as unsigned values (44_alu.md R95, R97). -/
def greaterFlag (a b : Byte) : Byte :=
  flag (decide (b.toNat < a.toNat))

/-- SHR's flag: bit 0 (44_alu.md R96). -/
def shrFlag (a : Byte) : Byte :=
  a &&& 1

/-- SHL's flag: bit 4, mask 0x10, not the bit shifted out (44_alu.md R98). -/
def shlFlag (a : Byte) : Byte :=
  flag (a &&& 0x10 != 0)

/-- The two statements of a flag-writing ALU instruction, `VF <- fl` and then `V[x] <- result`, where the result is
computed from the state the first statement left; with ALU_VF_DEST = flag and x = 0xF#4 one more statement `VF <- fl`
ends the instruction (44_alu.md R89). -/
def State.flagThenResult (s : State) (x : Nibble) (fl : Byte) (result : State → Byte) : State :=
  let flagged := s.setV 0xF#4 fl
  let written := flagged.setV x (result flagged)
  match s.params.aluVfDest with
  | .result => written
  | .flag => if x = 0xF#4 then written.setV 0xF#4 fl else written

end Sys2Proof.Machine
end

