-- ==== Sys2Proof/Machine/Alu.lean ====
section
/-! DEFINITION. The 0x8 family (44_alu.md): moves, logic, arithmetic and shifts on V[x] and V[y]. -/

namespace Sys2Proof.Machine

/-- LD_Vx_Vy: `V[x] <- V[y]` (R90). -/
def execLdVxVy (f : Fields) (s : State) : Result :=
  .next (s.setV f.x (s.vy f))

/-- OR_Vx_Vy: `V[x] <- V[x] OR V[y]` (R91). -/
def execOrVxVy (f : Fields) (s : State) : Result :=
  .next (s.setV f.x (s.vx f ||| s.vy f))

/-- AND_Vx_Vy: `V[x] <- V[x] AND V[y]` (R92). -/
def execAndVxVy (f : Fields) (s : State) : Result :=
  .next (s.setV f.x (s.vx f &&& s.vy f))

/-- XOR_Vx_Vy: `V[x] <- V[x] XOR V[y]` (R93). -/
def execXorVxVy (f : Fields) (s : State) : Result :=
  .next (s.setV f.x (s.vx f ^^^ s.vy f))

/-- ADD_Vx_Vy: the sum is computed before the flag is written, so the result does not read the new VF (R94). -/
def execAddVxVy (f : Fields) (s : State) : Result :=
  let sum := s.vx f + s.vy f
  .next (s.flagThenResult f.x (addFlag (s.vx f) (s.vy f)) fun _ => sum)

/-- SUB_Vx_Vy: `VF <- V[x] > V[y]; V[x] <- (V[x] - V[y]) mod 256`, the second statement reading V[x] and V[y] after
the VF write (R95). -/
def execSubVxVy (f : Fields) (s : State) : Result :=
  .next (s.flagThenResult f.x (greaterFlag (s.vx f) (s.vy f)) fun t => t.vx f - t.vy f)

/-- SHR_Vx_Vy: `VF <- V[x] AND 1; V[x] <- V[x] >> 1`, V[y] not read (R96). -/
def execShrVxVy (f : Fields) (s : State) : Result :=
  .next (s.flagThenResult f.x (shrFlag (s.vx f)) fun t => t.vx f >>> 1)

/-- SUBN_Vx_Vy: `VF <- V[y] > V[x]; V[x] <- (V[y] - V[x]) mod 256`, the second statement reading after the VF write
(R97). -/
def execSubnVxVy (f : Fields) (s : State) : Result :=
  .next (s.flagThenResult f.x (greaterFlag (s.vy f) (s.vx f)) fun t => t.vy f - t.vx f)

/-- SHL_Vx_Vy: `VF <- bit 4 of V[x]; V[x] <- (V[x] << 1) mod 256`, V[y] not read (R98). -/
def execShlVxVy (f : Fields) (s : State) : Result :=
  .next (s.flagThenResult f.x (shlFlag (s.vx f)) fun t => t.vx f <<< 1)

end Sys2Proof.Machine
end

