-- ==== Sys2Proof/Machine/Control.lean ====
section
/-! DEFINITION. Control transfer: RET, JP, CALL, JP_V0 (41_control_flow.md). These four are the only meanings that
write pc; the Stepper adds 2 to what they write (40_step_cycle.md R67, R69). -/

namespace Sys2Proof.Machine

/-- RET: `if SP = 0: raise StackUnderflow(pc); pc <- Stack[SP]; SP <- SP - 1` (R73). -/
def execRet (_f : Fields) (s : State) : Result :=
  if s.sp = 0 then raise (.stackUnderflow s.pc) s
  else .next ((s.setPc (s.slot s.sp)).setSp (s.sp - 1))

/-- JP: `pc <- nnn` (R74). -/
def execJp (f : Fields) (s : State) : Result :=
  .next (s.setPc (absolute f))

/-- CALL: `if SP = 15: raise StackOverflow(pc, SP); SP <- SP + 1; Stack[SP] <- pc; pc <- nnn`, pushing the CALL's own
address (R75). -/
def execCall (f : Fields) (s : State) : Result :=
  if s.sp = 15 then raise (.stackOverflow s.pc s.sp) s
  else .next (((s.setSp (s.sp + 1)).setSlot (s.sp + 1) s.pc).setPc (absolute f))

/-- JP_V0: `pc <- V[0] + nnn`; with JP_V0_FALLTHROUGH = true the body of RND_Vx_byte follows, on the fields of this
opcode (R76). -/
def execJpV0 (f : Fields) (s : State) : Result :=
  let jumped := s.setPc (s.v0Plus f)
  match s.params.jpV0Fallthrough with
  | false => .next jumped
  | true => .next (jumped.randomInto f.x f.kk)

end Sys2Proof.Machine
end

