-- ==== Sys2Proof/Machine/Draw.lean ====
section
/-! DEFINITION. The display instructions and the sprite-draw engine (45_display.md). -/

namespace Sys2Proof.Machine

/-- What drawing changes: the display, and whether a lit pixel has been turned off so far. -/
structure Canvas where
  disp : Display
  collided : Bool
deriving DecidableEq, Repr

/-- One pixel: `old <- bitval(Disp[idx]); new <- old XOR bit; Disp[idx] <- new; if old = 1 and new = 0: VF <- 1`
(R102). A cell whose bit is 0 is written too. -/
def drawPixel (idx : Nat) (bit : Bool) (c : Canvas) : Canvas :=
  let old := (c.disp.cell idx).lit
  let new := xor old bit
  { disp := c.disp.put idx (.ofBit new), collided := c.collided || (old && !new) }

/-- The bit of a sprite row at column c: bit 7 is the leftmost pixel (R102, 20_memory.md R34). -/
def spriteBit (row : Byte) (c : Nat) : Bool :=
  row.getLsbD (7 - c)

/-- The columns of one sprite row, stopping at the right edge (R102). -/
def drawColumns (row : Byte) (x y : Nat) : List Nat → Canvas → Canvas
  | [], cv => cv
  | c :: cs, cv =>
    if Config.screenWidth ≤ x + c then cv
    else drawColumns row x y cs (drawPixel (y * Config.screenWidth + (x + c)) (spriteBit row c) cv)

/-- The rows of a sprite, stopping at the bottom edge; row r is the byte at I + r (R102). -/
def drawRows (mem : Memory) (base x y : Nat) : List Nat → Canvas → Canvas
  | [], cv => cv
  | r :: rs, cv =>
    if Config.screenHeight ≤ y + r then cv
    else drawRows mem base x y rs (drawColumns (mem.read (base + r)) x (y + r) (List.range 8) cv)

/-- CLS: every cell becomes unset; VF is unchanged (R101). -/
def execCls (_f : Fields) (s : State) : Result :=
  .next (s.setDisp blankDisplay)

/-- DRW_Vx_Vy: the coordinates are read before VF is written; the sprite range is checked for all n rows before
anything is written; VF ends 1 if a lit pixel was turned off, else 0 (R102). -/
def execDrwVxVy (f : Fields) (s : State) : Result :=
  if s.spriteInMemory f then
    let cv := drawRows s.mem s.i.toNat (s.startX f) (s.startY f) (List.range f.n.toNat) ⟨s.disp, false⟩
    .next ((s.setDisp cv.disp).setV 0xF#4 (flag cv.collided))
  else raise (.spriteOutOfRange s.pc s.i f.n) s

end Sys2Proof.Machine
end

