-- ==== Sys2Proof/Machine/Loads.lean ====
section
/-! DEFINITION. Register loads, immediates, the random byte, the timers and I (43_loads_and_immediates.md). -/

namespace Sys2Proof.Machine

/-- LD_Vx_byte: `V[x] <- kk` (R81). -/
def execLdVxByte (f : Fields) (s : State) : Result :=
  .next (s.setV f.x f.kk)

/-- ADD_Vx_byte: `V[x] <- (V[x] + kk) mod 256`, no flag (R82). -/
def execAddVxByte (f : Fields) (s : State) : Result :=
  .next (s.setV f.x (s.vx f + f.kk))

/-- LD_I: `I <- nnn` (R83). -/
def execLdI (f : Fields) (s : State) : Result :=
  .next (s.setI (absolute f))

/-- RND_Vx_byte: `r <- RandByte(); V[x] <- r AND kk` (R84). -/
def execRndVxByte (f : Fields) (s : State) : Result :=
  .next (s.randomInto f.x f.kk)

/-- LD_Vx_DT: `V[x] <- DT` (R85). -/
def execLdVxDt (f : Fields) (s : State) : Result :=
  .next (s.setV f.x s.dt)

/-- LD_DT_Vx: `DT <- V[x]` (R86). -/
def execLdDtVx (f : Fields) (s : State) : Result :=
  .next (s.setDt (s.vx f))

/-- LD_ST_Vx: `ST <- V[x]` (R87). -/
def execLdStVx (f : Fields) (s : State) : Result :=
  .next (s.setSt (s.vx f))

/-- ADD_I_Vx: `sum <- I + V[x]; if sum > 0xFFFF: raise IOverflow(pc, I, V[x]); I <- sum`, not reduced to 12 bits and
with no flag (R88). -/
def execAddIVx (f : Fields) (s : State) : Result :=
  if s.iPlusVx f > 0xFFFF then raise (.iOverflow s.pc s.i (s.vx f)) s
  else .next (s.setI (BitVec.ofNat 16 (s.iPlusVx f)))

end Sys2Proof.Machine
end

