-- ==== Sys2Proof/Machine/Skips.lean ====
section
/-! DEFINITION. The conditional skips (42_skips.md): each sets the step-local skip request where its condition holds
and writes nothing else; the Stepper adds the extra 2 (40_step_cycle.md R68, R69). -/

namespace Sys2Proof.Machine

/-- SE_Vx_byte: `if V[x] = kk: skip <- true` (R77). -/
def execSeVxByte (f : Fields) (s : State) : Result :=
  .next (s.skipIf (s.vx f == f.kk))

/-- SNE_Vx_byte: `if V[x] ≠ kk: skip <- true` (R78). -/
def execSneVxByte (f : Fields) (s : State) : Result :=
  .next (s.skipIf (s.vx f != f.kk))

/-- SE_Vx_Vy: `if V[x] = V[y]: skip <- true` (R79). -/
def execSeVxVy (f : Fields) (s : State) : Result :=
  .next (s.skipIf (s.vx f == s.vy f))

/-- SNE_Vx_Vy: `if V[x] ≠ V[y]: skip <- true` (R80). -/
def execSneVxVy (f : Fields) (s : State) : Result :=
  .next (s.skipIf (s.vx f != s.vy f))

end Sys2Proof.Machine
end

