-- ==== Sys2Proof/Machine/Dispatch.lean ====
section
/-! DEFINITION. The Executor (40_step_cycle.md R67): one arm per instruction kind, each one call of its meaning. -/

namespace Sys2Proof.Machine

def exec (i : Instr) (s : State) : Host.Outcome State Fault Refusal :=
  match i with
  | .cls f => Sys2Proof.Machine.execCls f s
  | .ret f => Sys2Proof.Machine.execRet f s
  | .jp f => Sys2Proof.Machine.execJp f s
  | .call f => Sys2Proof.Machine.execCall f s
  | .seVxByte f => Sys2Proof.Machine.execSeVxByte f s
  | .sneVxByte f => Sys2Proof.Machine.execSneVxByte f s
  | .seVxVy f => Sys2Proof.Machine.execSeVxVy f s
  | .ldVxByte f => Sys2Proof.Machine.execLdVxByte f s
  | .addVxByte f => Sys2Proof.Machine.execAddVxByte f s
  | .ldVxVy f => Sys2Proof.Machine.execLdVxVy f s
  | .orVxVy f => Sys2Proof.Machine.execOrVxVy f s
  | .andVxVy f => Sys2Proof.Machine.execAndVxVy f s
  | .xorVxVy f => Sys2Proof.Machine.execXorVxVy f s
  | .addVxVy f => Sys2Proof.Machine.execAddVxVy f s
  | .subVxVy f => Sys2Proof.Machine.execSubVxVy f s
  | .shrVxVy f => Sys2Proof.Machine.execShrVxVy f s
  | .subnVxVy f => Sys2Proof.Machine.execSubnVxVy f s
  | .shlVxVy f => Sys2Proof.Machine.execShlVxVy f s
  | .sneVxVy f => Sys2Proof.Machine.execSneVxVy f s
  | .ldI f => Sys2Proof.Machine.execLdI f s
  | .jpV0 f => Sys2Proof.Machine.execJpV0 f s
  | .rndVxByte f => Sys2Proof.Machine.execRndVxByte f s
  | .drwVxVy f => Sys2Proof.Machine.execDrwVxVy f s
  | .ldVxDt f => Sys2Proof.Machine.execLdVxDt f s
  | .ldDtVx f => Sys2Proof.Machine.execLdDtVx f s
  | .ldStVx f => Sys2Proof.Machine.execLdStVx f s
  | .addIVx f => Sys2Proof.Machine.execAddIVx f s

end Sys2Proof.Machine
end

