-- ==== Sys2Proof/Machine/Step.lean ====
section
/-! DEFINITION. The machine's one transition: the Stepper's cycle around the Executor (40_step_cycle.md R63, R70). -/

namespace Sys2Proof.Machine

/-- One step (R70). -/
def step (s : State) : Host.Outcome State Fault Refusal :=
  cycle exec s

/-- The state whose next step fetches and runs the opcode-table word: the load of a program of one instruction
(log 21). -/
def State.withFetchWord (s : State) (nbits w : Nat) : State :=
  s.placeOpcode (opcodeOfTableWord nbits w)

end Sys2Proof.Machine
end

