-- ==== Sys2Proof/Machine/Assembly.lean ====
section
/-! DEFINITION. The spec's assembly syntax (30_encoding.md R60): the disassembler's line of an instruction, its text,
and the opcode an assembler encodes for a line. It adds no semantics. -/

namespace Sys2Proof.Machine

/-- The mnemonics of R60. -/
inductive Mnemonic where
  | CLS | RET | JP | CALL | SE | SNE | LD | ADD | OR | AND | XOR | SUB | SHR | SUBN | SHL | RND | DRW
deriving DecidableEq, Repr

/-- The operand shapes of R60. -/
inductive AsmOperand where
  /-- A register `V0`..`VF`. -/
  | reg (r : Nibble)
  /-- An 8-bit immediate. -/
  | imm (b : Byte)
  /-- A 12-bit address. -/
  | addr (a : Addr)
  /-- DRW's height. -/
  | count (n : Nibble)
  | I
  | DT
  | ST
deriving DecidableEq, Repr

/-- A line: a mnemonic, its operands, destination first, and the `; n=` comment that keeps bits 3:0 of `5xy?` and
`9xy?` where they are not 0 (R60). -/
structure AsmLine where
  mnemonic : Mnemonic
  operands : List AsmOperand
  comment : Option Nibble := none
deriving DecidableEq, Repr

/-- The comment of a `5xy?` or `9xy?` (R60). -/
def lostBits (n : Nibble) : Option Nibble :=
  if n = 0 then none else some n

/-- The disassembler (R60). -/
def disassemble : Instr → AsmLine
  | .cls _ => { mnemonic := .CLS, operands := [] }
  | .ret _ => { mnemonic := .RET, operands := [] }
  | .jp f => { mnemonic := .JP, operands := [.addr f.nnn] }
  | .call f => { mnemonic := .CALL, operands := [.addr f.nnn] }
  | .seVxByte f => { mnemonic := .SE, operands := [.reg f.x, .imm f.kk] }
  | .sneVxByte f => { mnemonic := .SNE, operands := [.reg f.x, .imm f.kk] }
  | .seVxVy f => { mnemonic := .SE, operands := [.reg f.x, .reg f.y], comment := lostBits f.n }
  | .ldVxByte f => { mnemonic := .LD, operands := [.reg f.x, .imm f.kk] }
  | .addVxByte f => { mnemonic := .ADD, operands := [.reg f.x, .imm f.kk] }
  | .ldVxVy f => { mnemonic := .LD, operands := [.reg f.x, .reg f.y] }
  | .orVxVy f => { mnemonic := .OR, operands := [.reg f.x, .reg f.y] }
  | .andVxVy f => { mnemonic := .AND, operands := [.reg f.x, .reg f.y] }
  | .xorVxVy f => { mnemonic := .XOR, operands := [.reg f.x, .reg f.y] }
  | .addVxVy f => { mnemonic := .ADD, operands := [.reg f.x, .reg f.y] }
  | .subVxVy f => { mnemonic := .SUB, operands := [.reg f.x, .reg f.y] }
  | .shrVxVy f => { mnemonic := .SHR, operands := [.reg f.x, .reg f.y] }
  | .subnVxVy f => { mnemonic := .SUBN, operands := [.reg f.x, .reg f.y] }
  | .shlVxVy f => { mnemonic := .SHL, operands := [.reg f.x, .reg f.y] }
  | .sneVxVy f => { mnemonic := .SNE, operands := [.reg f.x, .reg f.y], comment := lostBits f.n }
  | .ldI f => { mnemonic := .LD, operands := [.I, .addr f.nnn] }
  | .jpV0 f => { mnemonic := .JP, operands := [.reg 0x0, .addr f.nnn] }
  | .rndVxByte f => { mnemonic := .RND, operands := [.reg f.x, .imm f.kk] }
  | .drwVxVy f => { mnemonic := .DRW, operands := [.reg f.x, .reg f.y, .count f.n] }
  | .ldVxDt f => { mnemonic := .LD, operands := [.reg f.x, .DT] }
  | .ldDtVx f => { mnemonic := .LD, operands := [.DT, .reg f.x] }
  | .ldStVx f => { mnemonic := .LD, operands := [.ST, .reg f.x] }
  | .addIVx f => { mnemonic := .ADD, operands := [.I, .reg f.x] }

/-- The sub-operation of the mnemonics of the 0x8 family with two registers (30_encoding.md R52). -/
def subOperation : Mnemonic → Option Nibble
  | .LD => some 0x0
  | .OR => some 0x1
  | .AND => some 0x2
  | .XOR => some 0x3
  | .ADD => some 0x4
  | .SUB => some 0x5
  | .SHR => some 0x6
  | .SUBN => some 0x7
  | .SHL => some 0x8
  | .CLS | .RET | .JP | .CALL | .SE | .SNE | .RND | .DRW => none

/-- The top nibble of the mnemonics with a register and an immediate (R50). -/
def immediateOperation : Mnemonic → Option Nibble
  | .SE => some 0x3
  | .SNE => some 0x4
  | .LD => some 0x6
  | .ADD => some 0x7
  | .RND => some 0xC
  | .CLS | .RET | .JP | .CALL | .OR | .AND | .XOR | .SUB | .SHR | .SUBN | .SHL | .DRW => none

/-- The assembler: the mnemonic with its operand shapes determines the kind; `SE Vx, Vy` and `SNE Vx, Vy` are
encoded with bits 3:0 = 0; the comment is not read (R60). A line of no kind has no opcode. -/
def assemble (line : AsmLine) : Option Opcode :=
  match line.operands with
  | [] =>
    match line.mnemonic with
    | .CLS => some 0x00E0
    | .RET => some 0x00EE
    | _ => none
  | [.addr a] =>
    match line.mnemonic with
    | .JP => some (0x1#4 ++ a)
    | .CALL => some (0x2#4 ++ a)
    | _ => none
  | [.reg x, .imm kk] => (immediateOperation line.mnemonic).map fun op => op ++ x ++ kk
  | [.reg x, .reg y] =>
    match line.mnemonic with
    | .SE => some (0x5#4 ++ x ++ y ++ 0x0#4)
    | .SNE => some (0x9#4 ++ x ++ y ++ 0x0#4)
    | m => (subOperation m).map fun sub => 0x8#4 ++ x ++ y ++ sub
  | [.I, .addr a] => if line.mnemonic = .LD then some (0xA#4 ++ a) else none
  | [.reg r, .addr a] => if line.mnemonic = .JP ∧ r = 0x0 then some (0xB#4 ++ a) else none
  | [.reg x, .reg y, .count n] => if line.mnemonic = .DRW then some (0xD#4 ++ x ++ y ++ n) else none
  | [.reg x, .DT] => if line.mnemonic = .LD then some (0xF#4 ++ x ++ 0x07#8) else none
  | [.DT, .reg x] => if line.mnemonic = .LD then some (0xF#4 ++ x ++ 0x15#8) else none
  | [.ST, .reg x] => if line.mnemonic = .LD then some (0xF#4 ++ x ++ 0x18#8) else none
  | [.I, .reg x] => if line.mnemonic = .ADD then some (0xF#4 ++ x ++ 0x1E#8) else none
  | _ => none

/-- A hexadecimal digit, upper case (R60). -/
def hexDigit (d : Nibble) : String :=
  (["0", "1", "2", "3", "4", "5", "6", "7", "8", "9", "A", "B", "C", "D", "E", "F"])[d.toNat]'d.isLt

/-- The decimal text of DRW's height, as the spec's examples write it (log 22). -/
def countText (n : Nibble) : String :=
  (["0", "1", "2", "3", "4", "5", "6", "7", "8", "9", "10", "11", "12", "13", "14", "15"])[n.toNat]'n.isLt

/-- The text of a mnemonic. -/
def Mnemonic.text : Mnemonic → String
  | .CLS => "CLS" | .RET => "RET" | .JP => "JP" | .CALL => "CALL" | .SE => "SE" | .SNE => "SNE" | .LD => "LD"
  | .ADD => "ADD" | .OR => "OR" | .AND => "AND" | .XOR => "XOR" | .SUB => "SUB" | .SHR => "SHR" | .SUBN => "SUBN"
  | .SHL => "SHL" | .RND => "RND" | .DRW => "DRW"

/-- The text of an operand: registers with an upper-case hexadecimal index, immediates and addresses in hexadecimal
with `0x` (R60). -/
def AsmOperand.text : AsmOperand → String
  | .reg r => "V" ++ hexDigit r
  | .imm b => "0x" ++ hexDigit (b.extractLsb' 4 4) ++ hexDigit (b.extractLsb' 0 4)
  | .addr a => "0x" ++ hexDigit (a.extractLsb' 8 4) ++ hexDigit (a.extractLsb' 4 4) ++ hexDigit (a.extractLsb' 0 4)
  | .count n => countText n
  | .I => "I"
  | .DT => "DT"
  | .ST => "ST"

/-- Operands separated by a comma and a space (R60). -/
def operandsText : List AsmOperand → String
  | [] => ""
  | [o] => " " ++ o.text
  | o :: os => " " ++ o.text ++ "," ++ operandsText os

/-- The text of a line (R60). -/
def AsmLine.text (line : AsmLine) : String :=
  line.mnemonic.text ++ operandsText line.operands ++
    match line.comment with
    | none => ""
    | some n => " ; n=0x" ++ hexDigit n

end Sys2Proof.Machine
end

