-- ==== Sys2Proof/Machine/Boot.lean ====
section
/-! DEFINITION. The host's install operations and the boot sequence (70_reset_and_hazards.md R125 to R128). -/

namespace Sys2Proof.Machine

/-- Where `loadFont` installs (R126). -/
abbrev fontBase : Nat := 0x050

/-- Where `loadRom` installs, and the entry point (R124, R127). -/
abbrev romBase : Nat := 0x200

/-- `loadFont(table)`: the entries, reduced modulo 256, from 0x050 on; refused where they would reach 0x200
(R126, R128). -/
def loadFont (table : List Nat) (s : State) : Result :=
  if fontBase + table.length ≤ romBase then .next { s with mem := s.mem.install fontBase table }
  else .refused .fontTooLong

/-- `loadROM(bytes)`: the bytes, reduced modulo 256, from 0x200 on; refused where they would pass 0xFFF
(R127, R128). -/
def loadRom (bytes : List Nat) (s : State) : Result :=
  if romBase + bytes.length ≤ Config.memSize then .next { s with mem := s.mem.install romBase bytes }
  else .refused .romTooLong

/-- The boot sequence: create the machine with the given parameters, `loadFont`, `loadROM`; the host then calls
`step` (R125). -/
def boot (params : Params) (font rom : List Nat) : Result :=
  match loadFont font { State.reset with params := params } with
  | .next s => loadRom rom s
  | .fault r => .fault r
  | .refused r => .refused r

end Sys2Proof.Machine
end

