-- ==== Sys2Proof/Machine/System.lean ====
section
/-! DEFINITION. The host's operations between steps (60_exceptions.md R118, R121; 45_display.md R105) and a run in
which they may stand between steps. -/

namespace Sys2Proof.Machine

/-- The host's move that replaces DT and ST, which it has where HOST_TIMER_WRITES is true (R118). -/
def hostWriteTimers (dt st : Byte) (s : State) : Result :=
  if s.params.hostTimerWrites then .next ((s.setDt dt).setSt st) else .refused .hostTimersClosed

/-- What may happen next in a whole system: a step of the core, or a timer write by the host. -/
inductive Move where
  | step
  | writeTimers (dt st : Byte)
deriving DecidableEq, Repr

/-- One move. -/
def move : Move → State → Result
  | .step, s => step s
  | .writeTimers dt st, s => hostWriteTimers dt st s

/-- A run in which host moves stand between steps, stopping at the first fault or refusal. -/
def runMoves : List Move → State → Result
  | [], s => .next s
  | m :: ms, s =>
    match move m s with
    | .next t => runMoves ms t
    | .fault r => .fault r
    | .refused r => .refused r

/-- What the diagnostic dump exposes: a read-only snapshot without memory and display (R121). -/
structure Dump where
  registers : Vector Byte 16
  stack : Vector Word 16
  sp : Fin 16
  pc : Word
  i : Word
  dt : Byte
  st : Byte
deriving DecidableEq, Repr

/-- The state inspection (R121). -/
def dump (s : State) : Dump :=
  { registers := s.v, stack := s.stack, sp := s.sp, pc := s.pc, i := s.i, dt := s.dt, st := s.st }

/-- The display read through `lit`, in row-major order: any cell that is not 1 is off (45_display.md R105). -/
def picture (s : State) : List Bool :=
  (List.range Config.screenCells).map fun idx => (s.disp.cell idx).lit

end Sys2Proof.Machine
end

