-- ==== Sys2Proof/Safety.lean ====
section
/-! DEFINITION. The terms claims use: parts of the state and frames, which parts each instruction reads and writes
(10_state.md R14, R24), the machine invariant, and how a run ends (70_reset_and_hazards.md R130). -/

namespace Sys2Proof.Machine

/-! ### Parts of the state, frames and agreement -/

/-- A part of the state that an instruction may read or write. -/
inductive Part where
  | mem
  | v (r : Nibble)
  | pc
  | i
  | sp
  | slot (k : Fin 16)
  | dt
  | st
  | disp
  | status
  | skip
  | draws
deriving DecidableEq, Repr

/-- Two states hold the same in a part. Memory is compared through the read of one byte. -/
def Part.same : Part → State → State → Prop
  | .mem, s, t => ∀ a, t.mem.read a = s.mem.read a
  | .v r, s, t => t.getV r = s.getV r
  | .pc, s, t => t.pc = s.pc
  | .i, s, t => t.i = s.i
  | .sp, s, t => t.sp = s.sp
  | .slot k, s, t => t.slot k = s.slot k
  | .dt, s, t => t.dt = s.dt
  | .st, s, t => t.st = s.st
  | .disp, s, t => t.disp = s.disp
  | .status, s, t => t.status = s.status
  | .skip, s, t => t.skip = s.skip
  | .draws, s, t => t.draws = s.draws

/-- Every part outside the list is the same before and after, and so are the parameters. -/
def Frame (may : List Part) (s t : State) : Prop :=
  (∀ p, p ∉ may → p.same s t) ∧ t.params = s.params

/-- Two states hold the same in every part of the list, and have the same parameters. -/
def Agree (parts : List Part) (s t : State) : Prop :=
  (∀ p ∈ parts, p.same s t) ∧ t.params = s.params

/-! ### What the spec's tables say of reads and writes -/

/-- The parts an instruction may write in the Execute stage: R14's table for the general registers, R18 to R24, R28
and R100 for the rest. `status` is written only by the four kinds that can fault (60_exceptions.md R107). -/
def mayWrite (s : State) : Instr → List Part
  | .cls _ => [.disp]
  | .ret _ => [.pc, .sp, .status]
  | .jp _ => [.pc]
  | .call _ => [.pc, .sp, .slot (s.sp + 1), .status]
  | .seVxByte _ | .sneVxByte _ | .seVxVy _ | .sneVxVy _ => [.skip]
  | .ldVxByte f | .addVxByte f | .ldVxDt f => [.v f.x]
  | .ldVxVy f | .orVxVy f | .andVxVy f | .xorVxVy f => [.v f.x]
  | .addVxVy f | .subVxVy f | .shrVxVy f | .subnVxVy f | .shlVxVy f => [.v 0xF#4, .v f.x]
  | .ldI _ => [.i]
  | .jpV0 f => if s.params.jpV0Fallthrough then [.pc, .v f.x, .draws] else [.pc]
  | .rndVxByte f => [.v f.x, .draws]
  | .drwVxVy _ => [.disp, .v 0xF#4, .status]
  | .ldDtVx _ => [.dt]
  | .ldStVx _ => [.st]
  | .addIVx _ => [.i, .status]

/-- The parts an instruction may read in the Execute stage: R14's table for the general registers, R18 to R23 for the
rest, and pc where a fault records it (60_exceptions.md R107). -/
def mayRead (s : State) : Instr → List Part
  | .cls _ | .jp _ | .ldVxByte _ | .ldI _ => []
  | .ret _ => [.sp, .slot s.sp, .pc]
  | .call _ => [.sp, .pc]
  | .seVxByte f | .sneVxByte f | .addVxByte f | .ldDtVx f | .ldStVx f => [.v f.x]
  | .seVxVy f | .sneVxVy f | .orVxVy f | .andVxVy f | .xorVxVy f => [.v f.x, .v f.y]
  | .addVxVy f | .subVxVy f | .subnVxVy f => [.v f.x, .v f.y]
  | .shrVxVy f | .shlVxVy f => [.v f.x]
  | .ldVxVy f => [.v f.y]
  | .jpV0 _ => if s.params.jpV0Fallthrough then [.v 0x0#4, .draws] else [.v 0x0#4]
  | .rndVxByte _ => [.draws]
  | .drwVxVy f => [.v f.x, .v f.y, .i, .mem, .disp, .pc]
  | .ldVxDt _ => [.dt]
  | .addIVx f => [.v f.x, .i, .pc]

/-- The parts that an instruction writes on a condition only, so that what it leaves in them may be their old contents:
the skip request of a skip, everything a kind that can fault writes (60_exceptions.md R107, R108), and the cells that a
draw does not visit (45_display.md R103). A kind that is not listed writes whatever it writes outright. -/
def mayKeep (s : State) : Instr → List Part
  | .seVxByte _ | .sneVxByte _ | .seVxVy _ | .sneVxVy _ => [.skip]
  | .ret _ => [.pc, .sp, .status]
  | .call _ => [.pc, .sp, .slot (s.sp + 1), .status]
  | .drwVxVy _ => [.disp, .v 0xF#4, .status]
  | .addIVx _ => [.i, .status]
  | .cls _ | .jp _ | .ldVxByte _ | .addVxByte _ | .ldVxVy _ | .orVxVy _ | .andVxVy _ | .xorVxVy _ | .addVxVy _
  | .subVxVy _ | .shrVxVy _ | .subnVxVy _ | .shlVxVy _ | .ldI _ | .jpV0 _ | .rndVxByte _ | .ldVxDt _ | .ldDtVx _
  | .ldStVx _ => []

/-- Two instructions of one kind with the same operands, the fields the kind does not use left aside
(30_encoding.md R55). JP_V0 uses x and kk only where JP_V0_FALLTHROUGH is true. -/
def sameOperands (p : Params) : Instr → Instr → Prop
  | .cls _, .cls _ | .ret _, .ret _ => True
  | .jp f, .jp g | .call f, .call g | .ldI f, .ldI g => f.nnn = g.nnn
  | .jpV0 f, .jpV0 g => f.nnn = g.nnn ∧ (p.jpV0Fallthrough = true → f.x = g.x ∧ f.kk = g.kk)
  | .seVxByte f, .seVxByte g | .sneVxByte f, .sneVxByte g | .ldVxByte f, .ldVxByte g
  | .addVxByte f, .addVxByte g | .rndVxByte f, .rndVxByte g => f.x = g.x ∧ f.kk = g.kk
  | .seVxVy f, .seVxVy g | .sneVxVy f, .sneVxVy g | .ldVxVy f, .ldVxVy g | .orVxVy f, .orVxVy g
  | .andVxVy f, .andVxVy g | .xorVxVy f, .xorVxVy g | .addVxVy f, .addVxVy g | .subVxVy f, .subVxVy g
  | .subnVxVy f, .subnVxVy g => f.x = g.x ∧ f.y = g.y
  | .shrVxVy f, .shrVxVy g | .shlVxVy f, .shlVxVy g => f.x = g.x
  | .drwVxVy f, .drwVxVy g => f.x = g.x ∧ f.y = g.y ∧ f.n = g.n
  | .ldVxDt f, .ldVxDt g | .ldDtVx f, .ldDtVx g | .ldStVx f, .ldStVx g | .addIVx f, .addIVx g => f.x = g.x
  | _, _ => False

/-! ### Encoding and fetching, in the spec's own arithmetic -/

/-- Every opcode with `opcode AND mask = pat` decodes to the kind, with its own fields (30_encoding.md R50). -/
def Selects (mask pat : Opcode) (make : Fields → Instr) : Prop :=
  ∀ op : Opcode, op &&& mask = pat → decodeOpcode op = .ok (make (fieldsOf op))

/-- `MemRead(pc, 1) * 256 + MemRead(pc + 1, 1)` (40_step_cycle.md R65). -/
def State.opcodeAtPc (s : State) : Opcode :=
  BitVec.ofNat 16 ((s.mem.read s.pc.toNat).toNat * 256 + (s.mem.read (s.pc.toNat + 1)).toNat)

/-- A fetch at pc is in range (40_step_cycle.md R65). -/
def State.fetchable (s : State) : Prop :=
  s.pc.toNat + 1 ≤ 0xFFF

/-- The machine is running, can fetch, and the opcode at pc decodes to the instruction. -/
def State.atInstr (s : State) (i : Instr) : Prop :=
  s.status = .running ∧ s.fetchable ∧ decodeOpcode s.opcodeAtPc = .ok i

/-! ### Drawing, cell by cell (45_display.md R103) -/

/-- The columns and rows that a draw of height n at (x, y) visits. -/
abbrev visited (x y n idx : Nat) : Prop :=
  (y ≤ idx / 64 ∧ idx / 64 < min (y + n) 32) ∧ (x ≤ idx % 64 ∧ idx % 64 < min (x + 8) 64)

/-- The sprite bit that a visited cell meets: bit 7 − c of the byte at I + r, for its row r and column c of the
sprite. -/
def State.spriteBitAt (s : State) (x y idx : Nat) : Bool :=
  (s.mem.read (s.i.toNat + (idx / 64 - y))).toNat.testBit (7 - (idx % 64 - x))

/-! ### The invariant -/

/-- What every state of a run satisfies. -/
structure State.Inv (s : State) : Prop where
  /-- Memory keeps its canonical form. -/
  mem : s.mem.wf = true
  /-- No skip request outlives its step (10_state.md R25). -/
  skip : s.skip = false
  /-- The largest value pc can hold (10_state.md R17). -/
  pc : s.pc.toNat ≤ 0x1100
  /-- Every slot holds 0 or the address of a CALL that was fetched (10_state.md R20). -/
  slots : ∀ k, (s.slot k).toNat ≤ 0xFFE
  /-- Slot 0 is never written (10_state.md R20). -/
  slot0 : s.slot 0 = 0

/-! ### The end of a run (70_reset_and_hazards.md R130) -/

/-- PARKED: pc = A with 2 ≤ A ≤ 0xFFE, and the opcode at A is `JP A-2`, the word 0x1000 + (A - 2). -/
def State.parked (s : State) : Prop :=
  s.status = .running ∧ 2 ≤ s.pc.toNat ∧ s.pc.toNat ≤ 0xFFE ∧ s.opcodeAtPc.toNat = 0x1000 + (s.pc.toNat - 2)

/-- The three ways a run ends. -/
inductive RunEnd where
  /-- A step raised a fault. -/
  | faulted (e : CoreFault)
  /-- pc stands on a `JP A-2` at A. -/
  | parked
  /-- The host stopped calling step after this many steps, the machine being neither faulted nor parked (that it is not
  parked is DEDUCED, log 29). -/
  | stopped (steps : Nat)
deriving DecidableEq, Repr

/-- A run of k steps from s ends so in t; the three ends exclude each other. A faulted end is never a successful one
(60_exceptions.md R109). -/
def EndsIn (k : Nat) (s t : State) : RunEnd → Prop
  | .faulted e => Sys2Proof.core.run k s = .next t ∧ t.status = .faulted e
  | .parked => Sys2Proof.core.run k s = .next t ∧ t.parked
  | .stopped n => n = k ∧ Sys2Proof.core.run k s = .next t ∧ t.status = .running ∧ ¬t.parked

/-- A safe run: k steps, none of which raised a fault. -/
def SafeRun (k : Nat) (s : State) : Prop :=
  ∃ t : State, Sys2Proof.core.run k s = .next t ∧ t.status = .running

end Sys2Proof.Machine
end

