-- ==== Sys2Proof/Certificates/Slice0/Obligations.lean ====
section
/-! DEFINITION. The statements for the provers, each from the numbered rules its docstring cites. -/

open Sys2Proof Sys2Proof.Machine

/-! ### Creation, boot and the host -/

/-- R29: every value of the creation state, as the spec's table gives it, at every address of memory and every index of
the display. -/
def Obligations.ResetIsTheCreationState : Prop :=
  (∀ a : Nat, a < 0x1000 → State.reset.mem.read a = 0) ∧ (∀ r : Nibble, State.reset.getV r = 0) ∧ State.reset.pc = 0x200 ∧
    State.reset.i = 0 ∧ State.reset.sp = 0 ∧ (∀ k : Fin 16, State.reset.slot k = 0) ∧ State.reset.dt = 0 ∧
    State.reset.st = 0 ∧ (∀ idx : Nat, idx < 2048 → State.reset.disp.cell idx = .unset) ∧
    State.reset.status = .running

/-- R126, R127, R128: a launch within the bounds installs FONT at 0x050 and ROM at 0x200, each byte modulo 256, and
leaves everything else as created; a launch beyond a bound is refused (the bounds are the spec's decision D19). The model's choices: the canonical form of
memory and the 0 that an address above 0xFFF reads as (log 25), and that the parameters are held in State (log 4). -/
def Obligations.BootInstallsFontAndRom : Prop :=
  ∀ (p : Params) (font rom : List Nat),
    (0x050 + font.length ≤ 0x200 → 0x200 + rom.length ≤ 0x1000 →
      ∃ s : State, boot p font rom = .next s ∧
        (∀ (k : Nat) (h : k < font.length), s.mem.read (0x050 + k) = BitVec.ofNat 8 (font[k] % 256)) ∧
        (∀ (k : Nat) (h : k < rom.length), s.mem.read (0x200 + k) = BitVec.ofNat 8 (rom[k] % 256)) ∧
        (∀ a : Nat, a < 0x050 ∨ (0x050 + font.length ≤ a ∧ a < 0x200) ∨ 0x200 + rom.length ≤ a →
          s.mem.read a = 0) ∧
        s.mem.wf = true ∧ { s with mem := State.reset.mem, params := State.reset.params } = State.reset ∧
        s.params = p) ∧
      (0x200 < 0x050 + font.length → boot p font rom = .refused .fontTooLong) ∧
      (0x050 + font.length ≤ 0x200 → 0x1000 < 0x200 + rom.length → boot p font rom = .refused .romTooLong)

/-- R118: with HOST_TIMER_WRITES = true the host's move replaces DT and ST with any values and changes nothing else;
with false there is no such move (the spec's decision D17); and a step changes DT only by LD_DT_Vx and ST only by
LD_ST_Vx. That the host also has the move before the first step and on a faulted machine is the model's choice
(log 33). -/
def Obligations.HostMayRewriteTheTimers : Prop :=
  (∀ (s : State) (d u : Byte), s.params.hostTimerWrites = true →
    ∃ t : State, hostWriteTimers d u s = .next t ∧ t.dt = d ∧ t.st = u ∧ Frame [.dt, .st] s t) ∧
  (∀ (s : State) (d u : Byte), s.params.hostTimerWrites = false →
    hostWriteTimers d u s = .refused .hostTimersClosed) ∧
  (∀ s t : State, step s = .next t →
    (t.dt ≠ s.dt → ∃ f : Fields, decodeOpcode s.opcodeAtPc = .ok (.ldDtVx f)) ∧
    (t.st ≠ s.st → ∃ f : Fields, decodeOpcode s.opcodeAtPc = .ok (.ldStVx f)))

/-! ### The invariant -/

/-- The invariant holds of the creation state (R17, R20, R25, R29). The canonical form of memory and the skip request as
a field of State are the model's choices (logs 25, 2). -/
def Obligations.InvariantHoldsAtReset : Prop :=
  State.reset.Inv

/-- Every step keeps the invariant: canonical memory, no skip request left over (R25), pc at most 0x1100 (R17), stack
slots that hold addresses of fetched CALLs, and slot 0 never written (R20). R17 and R20 are the spec's derivations; the
canonical form and the skip request as a field of State are the model's choices (logs 25, 2). -/
def Obligations.StepKeepsInvariant : Prop :=
  ∀ s t : State, s.Inv → step s = .next t → t.Inv

/-- The invariant holds along every run of a whole system: booted with any parameters, font and program, through any
steps and host timer writes. The model's choices: the canonical form of memory (log 25), the parameters held in State
(log 4), and host moves before the first step and after a fault (log 33). -/
def Obligations.EveryReachableStateKeepsInvariant : Prop :=
  ∀ (p : Params) (font rom : List Nat) (s t : State) (ms : List Move),
    boot p font rom = .next s → runMoves ms s = .next t → t.Inv ∧ t.mem = s.mem ∧ t.params = p

/-! ### Encoding and the Decoder -/

/-- R46, R50: decoding the encoding of a well-formed instruction gives it back, with every field. -/
def Obligations.DecodeOfEncodeIsTheInstruction : Prop :=
  ∀ i : Instr, i.wellFormed = true → decodeOpcode (encode i) = .ok i

/-- R45, R47, R48: what decodes is well formed, carries the opcode's own fields, and encodes to the same opcode. -/
def Obligations.DecodedInstructionEncodesBack : Prop :=
  ∀ (op : Opcode) (i : Instr), decodeOpcode op = .ok i →
    i.wellFormed = true ∧ i.fields = fieldsOf op ∧ encode i = op

/-- R48: the five fields, by the source's mask and shift formulas, and their overlaps, which the spec derives. -/
def Obligations.FieldsAreTheMaskedSlices : Prop :=
  ∀ op : Opcode,
    (fieldsOf op).n.toNat = (op &&& 0x000F).toNat ∧ (fieldsOf op).nnn.toNat = (op &&& 0x0FFF).toNat ∧
    (fieldsOf op).x.toNat = ((op &&& 0x0F00) >>> 8).toNat ∧ (fieldsOf op).y.toNat = ((op &&& 0x00F0) >>> 4).toNat ∧
    (fieldsOf op).kk.toNat = (op &&& 0x00FF).toNat ∧
    (fieldsOf op).nnn.toNat = (fieldsOf op).x.toNat * 256 + (fieldsOf op).kk.toNat ∧
    (fieldsOf op).kk.toNat = (fieldsOf op).y.toNat * 16 + (fieldsOf op).n.toNat

/-- R50, R57: each of the 27 rows selects its kind, and an opcode that no row selects fails with a DecodeError
carrying it. -/
def Obligations.DecoderFollowsTheOpcodeMap : Prop :=
  (Selects 0xFFFF 0x00E0 .cls ∧ Selects 0xFFFF 0x00EE .ret ∧ Selects 0xF000 0x1000 .jp ∧
    Selects 0xF000 0x2000 .call ∧ Selects 0xF000 0x3000 .seVxByte ∧ Selects 0xF000 0x4000 .sneVxByte ∧
    Selects 0xF000 0x5000 .seVxVy ∧ Selects 0xF000 0x6000 .ldVxByte ∧ Selects 0xF000 0x7000 .addVxByte ∧
    Selects 0xF00F 0x8000 .ldVxVy ∧ Selects 0xF00F 0x8001 .orVxVy ∧ Selects 0xF00F 0x8002 .andVxVy ∧
    Selects 0xF00F 0x8003 .xorVxVy ∧ Selects 0xF00F 0x8004 .addVxVy ∧ Selects 0xF00F 0x8005 .subVxVy ∧
    Selects 0xF00F 0x8006 .shrVxVy ∧ Selects 0xF00F 0x8007 .subnVxVy ∧ Selects 0xF00F 0x8008 .shlVxVy ∧
    Selects 0xF000 0x9000 .sneVxVy ∧ Selects 0xF000 0xA000 .ldI ∧ Selects 0xF000 0xB000 .jpV0 ∧
    Selects 0xF000 0xC000 .rndVxByte ∧ Selects 0xF000 0xD000 .drwVxVy ∧ Selects 0xF0FF 0xF007 .ldVxDt ∧
    Selects 0xF0FF 0xF015 .ldDtVx ∧ Selects 0xF0FF 0xF018 .ldStVx ∧ Selects 0xF0FF 0xF01E .addIVx) ∧
  ∀ op : Opcode,
    (∀ m ∈ [(0xFFFF, 0x00E0), (0xFFFF, 0x00EE), (0xF000, 0x1000), (0xF000, 0x2000), (0xF000, 0x3000),
        (0xF000, 0x4000), (0xF000, 0x5000), (0xF000, 0x6000), (0xF000, 0x7000), (0xF00F, 0x8000), (0xF00F, 0x8001),
        (0xF00F, 0x8002), (0xF00F, 0x8003), (0xF00F, 0x8004), (0xF00F, 0x8005), (0xF00F, 0x8006), (0xF00F, 0x8007),
        (0xF00F, 0x8008), (0xF000, 0x9000), (0xF000, 0xA000), (0xF000, 0xB000), (0xF000, 0xC000), (0xF000, 0xD000),
        (0xF0FF, 0xF007), (0xF0FF, 0xF015), (0xF0FF, 0xF018), ((0xF0FF : Opcode), (0xF01E : Opcode))],
      op &&& m.1 ≠ m.2) →
    decodeOpcode op = .error (.unrecognised op)

/-- R58, which the spec derives: exactly which opcodes raise DecodeError, by ranges. -/
def Obligations.UndecodableOpcodesAreTheListedRanges : Prop :=
  ∀ op : Opcode, decodeOpcode op = .error (.unrecognised op) ↔
    (op.toNat ≤ 0x0FFF ∧ op.toNat ≠ 0x00E0 ∧ op.toNat ≠ 0x00EE) ∨
    (op.toNat / 4096 = 0x8 ∧ 9 ≤ op.toNat % 16) ∨
    (0xE000 ≤ op.toNat ∧ op.toNat ≤ 0xEFFF) ∨
    (0xF000 ≤ op.toNat ∧ op.toNat % 256 ≠ 0x07 ∧ op.toNat % 256 ≠ 0x15 ∧ op.toNat % 256 ≠ 0x18 ∧
      op.toNat % 256 ≠ 0x1E)

/-- R56, which the spec derives: no opcode selects two rows of the table, so the first-match order never changes a
result. -/
def Obligations.OpcodeRowsArePairwiseDisjoint : Prop :=
  opcodeTable.Pairwise fun r q => ∀ op : Opcode, ¬(r.selects op = true ∧ q.selects op = true)

/-- R62: the source's decoding examples, the full record of 0x1ABC, and one opcode for each branch of the 0x8
family. -/
def Obligations.DecodingExamplesOfTheSource : Prop :=
  decodeOpcode 0x00E0 = .ok (.cls ⟨0x0, 0x0E0, 0x0, 0xE, 0xE0⟩) ∧
  decodeOpcode 0x1ABC = .ok (.jp ⟨0xC, 0xABC, 0xA, 0xB, 0xBC⟩) ∧
  decodeOpcode 0x8AB0 = .ok (.ldVxVy ⟨0x0, 0xAB0, 0xA, 0xB, 0xB0⟩) ∧
  decodeOpcode 0x8AB1 = .ok (.orVxVy ⟨0x1, 0xAB1, 0xA, 0xB, 0xB1⟩) ∧
  decodeOpcode 0x8AB2 = .ok (.andVxVy ⟨0x2, 0xAB2, 0xA, 0xB, 0xB2⟩) ∧
  decodeOpcode 0x8AB3 = .ok (.xorVxVy ⟨0x3, 0xAB3, 0xA, 0xB, 0xB3⟩) ∧
  decodeOpcode 0x8AB4 = .ok (.addVxVy ⟨0x4, 0xAB4, 0xA, 0xB, 0xB4⟩) ∧
  decodeOpcode 0x8AB5 = .ok (.subVxVy ⟨0x5, 0xAB5, 0xA, 0xB, 0xB5⟩) ∧
  decodeOpcode 0x8AB6 = .ok (.shrVxVy ⟨0x6, 0xAB6, 0xA, 0xB, 0xB6⟩) ∧
  decodeOpcode 0x8AB7 = .ok (.subnVxVy ⟨0x7, 0xAB7, 0xA, 0xB, 0xB7⟩) ∧
  decodeOpcode 0x8AB8 = .ok (.shlVxVy ⟨0x8, 0xAB8, 0xA, 0xB, 0xB8⟩)

/-- R60: an assembler encodes the disassembler's line of any opcode back to that opcode, but for bits 3:0 of `5xy?`
and `9xy?`, which the line keeps as its comment. The syntax is the spec's decision D21. -/
def Obligations.AssemblerEncodesTheDisassembledLine : Prop :=
  ∀ (op : Opcode) (i : Instr), decodeOpcode op = .ok i →
    assemble (disassemble i) =
      some (if op &&& 0xF000 = 0x5000 ∨ op &&& 0xF000 = 0x9000 then op &&& 0xFFF0 else op) ∧
    (disassemble i).comment =
      (if (op &&& 0xF000 = 0x5000 ∨ op &&& 0xF000 = 0x9000) ∧ op &&& 0x000F ≠ 0 then some (fieldsOf op).n else none)

/-! ### The cycle -/

/-- R69, R70: a running machine that fetches a decodable opcode runs the Executor on it with no skip request pending,
and then, where the Executor raised nothing, adds 2 to pc, and 2 more for a skip request, modulo 65536. That the request
is held in State is the model's choice (log 2). -/
def Obligations.StepRunsTheDecodedInstruction : Prop :=
  ∀ (s : State) (i : Instr), s.atInstr i →
    ∃ u : State, exec i s.clearSkip = .next u ∧
      (u.status = .running → step s = .next { u with
        pc := BitVec.ofNat 16 ((u.pc.toNat + 2 + (if u.skip then 2 else 0)) % 65536), skip := false }) ∧
      (u.status ≠ .running → step s = .next u)

/-- R65: a fetch with pc + 1 > 0xFFF raises FetchOutOfRange and writes nothing else; otherwise the opcode is the two
bytes at pc, the first one high, at any pc, odd ones included. These are the spec's decisions D1 (from general knowledge,
log 8), D2 and D3. -/
def Obligations.FetchIsBigEndianAndBounded : Prop :=
  ∀ s : State, s.status = .running →
    (0xFFF < s.pc.toNat + 1 → step s = .next { s with status := .faulted (.fetchOutOfRange s.pc) }) ∧
    (s.pc.toNat + 1 ≤ 0xFFF → s.fetch = some (BitVec.ofNat 16
      ((s.mem.read s.pc.toNat).toNat * 256 + (s.mem.read (s.pc.toNat + 1)).toNat)))

/-- R66 (the spec's derivation and decision D13): an opcode that does not decode ends the step with DecodeError, and
nothing else is written. -/
def Obligations.UndecodableOpcodeFaultsInPlace : Prop :=
  ∀ (s : State) (e : DecodeReject), s.status = .running → s.fetchable → decodeOpcode s.opcodeAtPc = .error e →
    step s = .next { s with status := .faulted (.decodeError s.opcodeAtPc) }

/-- R109: a faulted machine takes no further step, so no run of one step or more goes on from it; and no move of the
host sets it running again. Decision D13; that `step` then answers the outcome fault is the model's choice (log 1). -/
def Obligations.FaultedMachineTakesNoStep : Prop :=
  ∀ (s : State) (e : CoreFault), s.status = .faulted e →
    step s = .fault (.halted e) ∧
    (∀ k : Nat, Sys2Proof.core.run (k + 1) s = .fault (.halted e)) ∧
    (∀ (ms : List Move) (t : State), runMoves ms s = .next t → t.status = .faulted e)

/-- R108: a fault is precise: where a step records a fault, the state is otherwise as it was before the step. The
premise that no skip request is pending is part of the invariant (R25). Decision D13. -/
def Obligations.FaultsArePrecise : Prop :=
  ∀ (s t : State) (e : CoreFault), s.skip = false → step s = .next t → t.status = .faulted e →
    t = { s with status := .faulted e }

/-- R107, R112: the complete list of faults with their conditions, codes and information, tested in the order fetch,
decode, execute; under any other condition a step of a running machine raises nothing. The faults but DecodeError, the
codes and the order are the spec's decisions D2, D4 to D7 and D14. -/
def Obligations.FaultsAreExactlyTheListedOnes : Prop :=
  (∀ (p w : Word) (k : Fin 16) (b : Byte) (n : Nibble),
    (CoreFault.fetchOutOfRange p).code = 1 ∧ (CoreFault.decodeError p).code = 2 ∧
    (CoreFault.stackOverflow p k).code = 4 ∧ (CoreFault.stackUnderflow p).code = 5 ∧
    (CoreFault.iOverflow p w b).code = 6 ∧ (CoreFault.spriteOutOfRange p w n).code = 7) ∧
  ∀ s : State, s.status = .running →
    ∃ t : State, step s = .next t ∧
      ∀ e : CoreFault, t.status = .faulted e ↔
        (e = .fetchOutOfRange s.pc ∧ 0xFFF < s.pc.toNat + 1) ∨
        (s.pc.toNat + 1 ≤ 0xFFF ∧
          ((e = .decodeError s.opcodeAtPc ∧ decodeOpcode s.opcodeAtPc = .error (.unrecognised s.opcodeAtPc)) ∨
          ∃ f : Fields,
            (decodeOpcode s.opcodeAtPc = .ok (.call f) ∧ s.sp = 15 ∧ e = .stackOverflow s.pc s.sp) ∨
            (decodeOpcode s.opcodeAtPc = .ok (.ret f) ∧ s.sp = 0 ∧ e = .stackUnderflow s.pc) ∨
            (decodeOpcode s.opcodeAtPc = .ok (.addIVx f) ∧ 0xFFFF < s.i.toNat + (s.getV f.x).toNat ∧
              e = .iOverflow s.pc s.i (s.getV f.x)) ∨
            (decodeOpcode s.opcodeAtPc = .ok (.drwVxVy f) ∧ 1 ≤ f.n.toNat ∧ 0xFFF < s.i.toNat + f.n.toNat - 1 ∧
              e = .spriteOutOfRange s.pc s.i f.n)))

/-- R71, which the spec derives: pc after a step that raises nothing, for every kind: target + 2 after a jump, call or return, 4 beyond after
a taken skip, 2 beyond otherwise. -/
def Obligations.PcAfterEachStep : Prop :=
  ∀ (s t : State) (i : Instr), s.atInstr i → step s = .next t → t.status = .running →
    t.pc = match i with
      | .jp f | .call f => BitVec.ofNat 16 (f.nnn.toNat + 2)
      | .ret _ => s.slot s.sp + 2
      | .jpV0 f => BitVec.ofNat 16 ((s.getV 0x0#4).toNat + f.nnn.toNat + 2)
      | .seVxByte f => if s.getV f.x = f.kk then s.pc + 4 else s.pc + 2
      | .sneVxByte f => if s.getV f.x ≠ f.kk then s.pc + 4 else s.pc + 2
      | .seVxVy f => if s.getV f.x = s.getV f.y then s.pc + 4 else s.pc + 2
      | .sneVxVy f => if s.getV f.x ≠ s.getV f.y then s.pc + 4 else s.pc + 2
      | .cls _ | .ldVxByte _ | .addVxByte _ | .ldVxVy _ | .orVxVy _ | .andVxVy _ | .xorVxVy _ | .addVxVy _
      | .subVxVy _ | .shrVxVy _ | .subnVxVy _ | .shlVxVy _ | .ldI _ | .rndVxByte _ | .drwVxVy _ | .ldVxDt _
      | .ldDtVx _ | .ldStVx _ | .addIVx _ => s.pc + 2

/-- R71: a CALL at A goes to its target + 2; a RET that later finds SP and the slot at SP as the CALL left them resumes at
A + 2 with SP as before the CALL, whatever happened between, other calls that have returned included: a slot above SP
keeps what they left there (R20). The spec derives it. -/
def Obligations.ReturnResumesAfterItsCall : Prop :=
  ∀ (s t u : State) (f g : Fields), s.atInstr (.call f) → s.sp ≠ 15 → step s = .next t →
    u.atInstr (.ret g) → u.sp = t.sp → u.slot t.sp = t.slot t.sp →
    t.pc.toNat = f.nnn.toNat + 2 ∧ t.sp.val = s.sp.val + 1 ∧
      ∃ w : State, step u = .next w ∧ w.status = .running ∧ w.pc = s.pc + 2 ∧ w.sp = s.sp ∧ w.stack = u.stack

/-- R130 (decision D27): a PARKED state is one that every further step maps to itself. -/
def Obligations.ParkedStateIsFixed : Prop :=
  ∀ (s : State) (k : Nat), s.parked → s.skip = false → Sys2Proof.core.run k s = .next s

/-- R31, R41, which the spec derives: no instruction writes memory, so fetch sees the installed image throughout a
run. -/
def Obligations.NoRunWritesMemory : Prop :=
  ∀ (k : Nat) (s t : State), Sys2Proof.core.run k s = .next t → t.mem = s.mem

/-- R32, in part the spec's derivation: a step reads memory in two places only: the two bytes at pc, and the n bytes at I when it runs a DRW. Two
machines that differ only in memory, and not there, step alike. For RND_Vx_byte, and JP_V0 where it falls through, this
rests on the model's numbering of the draws: two machines with the same counter draw the same byte (log 3). -/
def Obligations.StepReadsOnlyOpcodeAndSprite : Prop :=
  ∀ (s t : State) (m : Memory),
    Memory.read m s.pc.toNat = s.mem.read s.pc.toNat →
    Memory.read m (s.pc.toNat + 1) = s.mem.read (s.pc.toNat + 1) →
    (∀ f : Fields, decodeOpcode s.opcodeAtPc = .ok (.drwVxVy f) →
      ∀ r : Nat, r < f.n.toNat → Memory.read m (s.i.toNat + r) = s.mem.read (s.i.toNat + r)) →
    step s = .next t → step { s with mem := m } = .next { t with mem := m }

/-! ### Frames and operands of all instructions -/

/-- R14 (derived by the spec), R18 to R24, R100: every instruction answers a next state and writes no part of the state
that the spec's tables do not list for it. `skip`, `draws` and `params` are the model's own (logs 2, 3, 4). -/
def Obligations.InstructionsWriteOnlyListedParts : Prop :=
  ∀ (i : Instr) (s : State), ∃ t : State, exec i s = .next t ∧ Frame (mayWrite s i) s t

/-- R14 (derived by the spec), R18 to R24: what an instruction writes depends only on the parts the spec's tables list as read by it and,
where it writes on a condition only, on the old contents of what it may leave unwritten. For RND_Vx_byte, and JP_V0 where
it falls through, this rests on the model's numbering of the draws: two machines with the same counter draw the same
byte (log 3). -/
def Obligations.InstructionsReadOnlyListedParts : Prop :=
  ∀ (i : Instr) (s s' : State), Agree (mayRead s i ++ mayKeep s i) s s' →
    ∃ t t' : State, exec i s = .next t ∧ exec i s' = .next t' ∧ Agree (mayWrite s i) t t'

/-- R55: the fields a kind does not use are ignored by its execution, bits 3:0 of `5xy?` and `9xy?` and y of SHR and
SHL among them. The spec derives it. -/
def Obligations.UnusedFieldsAreIgnored : Prop :=
  ∀ (i j : Instr) (s : State), sameOperands s.params i j → exec i s = exec j s

/-! ### Control transfer -/

/-- R73: RET returns through the stack; at SP = 0 it raises StackUnderflow (the spec's decision D5). -/
def Obligations.RetReturnsThroughTheStack : Prop :=
  Selects 0xFFFF 0x00EE .ret ∧
  ∀ (f : Fields) (s : State),
    (s.sp = 0 → exec (.ret f) s = .next { s with status := .faulted (.stackUnderflow s.pc) }) ∧
    (s.sp ≠ 0 → ∃ t : State, exec (.ret f) s = .next t ∧ t.pc = s.slot s.sp ∧ t.sp.val = s.sp.val - 1 ∧
      Frame [.pc, .sp] s t)

/-- R74: JP; the step ends at nnn + 2. -/
def Obligations.JpSetsPcToItsAddress : Prop :=
  Selects 0xF000 0x1000 .jp ∧
  ∀ (f : Fields) (s : State),
    ∃ t : State, exec (.jp f) s = .next t ∧ t.pc.toNat = f.nnn.toNat ∧ Frame [.pc] s t ∧
      (s.atInstr (.jp f) → step s = .next { s with pc := BitVec.ofNat 16 (f.nnn.toNat + 2), skip := false })

/-- R75: CALL pushes its own address; at SP = 15 it raises StackOverflow (the spec's decision D4). -/
def Obligations.CallPushesItsOwnAddress : Prop :=
  Selects 0xF000 0x2000 .call ∧
  ∀ (f : Fields) (s : State),
    (s.sp = 15 → exec (.call f) s = .next { s with status := .faulted (.stackOverflow s.pc s.sp) }) ∧
    (s.sp ≠ 15 → ∃ t : State, exec (.call f) s = .next t ∧ t.sp.val = s.sp.val + 1 ∧ t.slot t.sp = s.pc ∧
      t.pc.toNat = f.nnn.toNat ∧ Frame [.pc, .sp, .slot t.sp] s t)

/-- R76: JP_V0, for both values of JP_V0_FALLTHROUGH (decision D11): with true the body of RND follows on this opcode's x and kk,
after the jump has read V0. That the drawn byte is the next one of the model's draw sequence is the model's choice
(log 3). -/
def Obligations.JpV0JumpsAndMayFallThrough : Prop :=
  Selects 0xF000 0xB000 .jpV0 ∧
  ∀ (f : Fields) (s : State),
    ∃ t : State, exec (.jpV0 f) s = .next t ∧ t.pc.toNat = (s.getV 0x0#4).toNat + f.nnn.toNat ∧
      (s.params.jpV0Fallthrough = false → Frame [.pc] s t) ∧
      (s.params.jpV0Fallthrough = true →
        t.getV f.x = Config.randByte s.draws &&& f.kk ∧ t.draws = s.draws + 1 ∧ Frame [.pc, .v f.x, .draws] s t)

/-! ### Skips -/

/-- R77 to R80: the four skips set the skip request exactly where their condition holds, leave it otherwise, write
nothing else, and raise nothing; so the step ends 4 beyond where the condition holds and 2 beyond where it does not (R69, and R71, which the spec
derives). That the request is a field of State is the model's choice (log 2). -/
def Obligations.SkipsRequestTheSkipOnTheirCondition : Prop :=
  Selects 0xF000 0x3000 .seVxByte ∧ Selects 0xF000 0x4000 .sneVxByte ∧ Selects 0xF000 0x5000 .seVxVy ∧
  Selects 0xF000 0x9000 .sneVxVy ∧
  ∀ (f : Fields) (s : State),
    (∃ t : State, exec (.seVxByte f) s = .next t ∧ Frame [.skip] s t ∧
      t.skip = (if s.getV f.x = f.kk then true else s.skip)) ∧
    (∃ t : State, exec (.sneVxByte f) s = .next t ∧ Frame [.skip] s t ∧
      t.skip = (if s.getV f.x ≠ f.kk then true else s.skip)) ∧
    (∃ t : State, exec (.seVxVy f) s = .next t ∧ Frame [.skip] s t ∧
      t.skip = (if s.getV f.x = s.getV f.y then true else s.skip)) ∧
    (∃ t : State, exec (.sneVxVy f) s = .next t ∧ Frame [.skip] s t ∧
      t.skip = (if s.getV f.x ≠ s.getV f.y then true else s.skip)) ∧
    (s.atInstr (.seVxByte f) → step s = .next
      { s with pc := if s.getV f.x = f.kk then s.pc + 4 else s.pc + 2, skip := false }) ∧
    (s.atInstr (.sneVxByte f) → step s = .next
      { s with pc := if s.getV f.x ≠ f.kk then s.pc + 4 else s.pc + 2, skip := false }) ∧
    (s.atInstr (.seVxVy f) → step s = .next
      { s with pc := if s.getV f.x = s.getV f.y then s.pc + 4 else s.pc + 2, skip := false }) ∧
    (s.atInstr (.sneVxVy f) → step s = .next
      { s with pc := if s.getV f.x ≠ s.getV f.y then s.pc + 4 else s.pc + 2, skip := false })

/-! ### Loads, immediates, random, timers and I -/

/-- R81, R82: LD_Vx_byte and ADD_Vx_byte; the addition wraps and writes no flag. -/
def Obligations.ImmediateLoadAndAdd : Prop :=
  Selects 0xF000 0x6000 .ldVxByte ∧ Selects 0xF000 0x7000 .addVxByte ∧
  ∀ (f : Fields) (s : State),
    (∃ t : State, exec (.ldVxByte f) s = .next t ∧ t.getV f.x = f.kk ∧ Frame [.v f.x] s t) ∧
    (∃ t : State, exec (.addVxByte f) s = .next t ∧
      (t.getV f.x).toNat = ((s.getV f.x).toNat + f.kk.toNat) % 256 ∧ Frame [.v f.x] s t)

/-- R83: LD_I writes the 12-bit address, so I's high four bits become 0. -/
def Obligations.LdILoadsTheAddress : Prop :=
  Selects 0xF000 0xA000 .ldI ∧
  ∀ (f : Fields) (s : State),
    ∃ t : State, exec (.ldI f) s = .next t ∧ t.i.toNat = f.nnn.toNat ∧ Frame [.i] s t

/-- R84: RND_Vx_byte: the drawn byte masked by kk; kk = 0 gives 0 whatever the draw; each execution takes a draw of
its own. The free draw is the spec's decision D18; that the draws are numbered is the model's choice (log 3). -/
def Obligations.RndMasksAFreshByte : Prop :=
  Selects 0xF000 0xC000 .rndVxByte ∧
  ∀ (f : Fields) (s : State),
    ∃ t : State, exec (.rndVxByte f) s = .next t ∧ t.getV f.x = Config.randByte s.draws &&& f.kk ∧
      t.draws = s.draws + 1 ∧ Frame [.v f.x, .draws] s t ∧ (f.kk = 0 → t.getV f.x = 0) ∧
      t.getV f.x &&& ~~~f.kk = 0

/-- R85, R86: LD_Vx_DT and LD_DT_Vx copy between DT and V[x]; nothing else changes, so DT does not count down. -/
def Obligations.DelayTimerCopies : Prop :=
  Selects 0xF0FF 0xF007 .ldVxDt ∧ Selects 0xF0FF 0xF015 .ldDtVx ∧
  ∀ (f : Fields) (s : State),
    (∃ t : State, exec (.ldVxDt f) s = .next t ∧ t.getV f.x = s.dt ∧ Frame [.v f.x] s t) ∧
    (∃ t : State, exec (.ldDtVx f) s = .next t ∧ t.dt = s.getV f.x ∧ Frame [.dt] s t)

/-- R87: LD_ST_Vx copies V[x] into ST, and no instruction reads ST: machines that differ only in ST step alike in
everything else. For RND_Vx_byte, and JP_V0 where it falls through, that rests on the model's numbering of the draws: two
machines with the same counter draw the same byte (log 3). -/
def Obligations.SoundTimerIsWrittenAndNeverRead : Prop :=
  Selects 0xF0FF 0xF018 .ldStVx ∧
  (∀ (f : Fields) (s : State),
    ∃ t : State, exec (.ldStVx f) s = .next t ∧ t.st = s.getV f.x ∧ Frame [.st] s t) ∧
  (∀ (s t : State) (b : Byte), step s = .next t →
    ∃ t' : State, step { s with st := b } = .next t' ∧ { t' with st := t.st } = t)

/-- R88: ADD_I_Vx keeps every sum up to 0xFFFF, values above 0xFFF included, with no flag, and raises IOverflow above
it with nothing else written (the spec's decision D6). -/
def Obligations.AddIKeepsTheSumOrOverflows : Prop :=
  Selects 0xF0FF 0xF01E .addIVx ∧
  ∀ (f : Fields) (s : State),
    (s.i.toNat + (s.getV f.x).toNat ≤ 0xFFFF →
      ∃ t : State, exec (.addIVx f) s = .next t ∧ t.i.toNat = s.i.toNat + (s.getV f.x).toNat ∧ Frame [.i] s t) ∧
    (0xFFFF < s.i.toNat + (s.getV f.x).toNat →
      exec (.addIVx f) s = .next { s with status := .faulted (.iOverflow s.pc s.i (s.getV f.x)) })

/-! ### The 0x8 family -/

/-- R90 to R93: the move and the three bitwise operations write V[x] and no flag. -/
def Obligations.MoveAndLogicWriteOnlyVx : Prop :=
  Selects 0xF00F 0x8000 .ldVxVy ∧ Selects 0xF00F 0x8001 .orVxVy ∧ Selects 0xF00F 0x8002 .andVxVy ∧
  Selects 0xF00F 0x8003 .xorVxVy ∧
  ∀ (f : Fields) (s : State),
    (∃ t : State, exec (.ldVxVy f) s = .next t ∧ t.getV f.x = s.getV f.y ∧ Frame [.v f.x] s t) ∧
    (∃ t : State, exec (.orVxVy f) s = .next t ∧ Frame [.v f.x] s t ∧
      ∀ k : Nat, (t.getV f.x).toNat.testBit k = ((s.getV f.x).toNat.testBit k || (s.getV f.y).toNat.testBit k)) ∧
    (∃ t : State, exec (.andVxVy f) s = .next t ∧ Frame [.v f.x] s t ∧
      ∀ k : Nat, (t.getV f.x).toNat.testBit k = ((s.getV f.x).toNat.testBit k && (s.getV f.y).toNat.testBit k)) ∧
    (∃ t : State, exec (.xorVxVy f) s = .next t ∧ Frame [.v f.x] s t ∧
      ∀ k : Nat, (t.getV f.x).toNat.testBit k = xor ((s.getV f.x).toNat.testBit k) ((s.getV f.y).toNat.testBit k))

/-- R94: ADD_Vx_Vy: the carry of the full-precision sum in VF and the sum modulo 256 in V[x]; with VF as the
destination, VF ends with the sum, or with the carry where ALU_VF_DEST = flag (R89, decisions D8, D28). -/
def Obligations.AddWritesCarryThenSum : Prop :=
  Selects 0xF00F 0x8004 .addVxVy ∧
  ∀ (f : Fields) (s : State),
    let sum := (s.getV f.x).toNat + (s.getV f.y).toNat
    let fl := if 255 < sum then 1 else 0
    ∃ t : State, exec (.addVxVy f) s = .next t ∧ Frame [.v 0xF#4, .v f.x] s t ∧
      (f.x ≠ 0xF#4 → (t.getV f.x).toNat = sum % 256 ∧ (t.getV 0xF#4).toNat = fl) ∧
      (f.x = 0xF#4 → (t.getV 0xF#4).toNat = (if s.params.aluVfDest = .result then sum % 256 else fl))

/-- R95, R97: SUB_Vx_Vy and SUBN_Vx_Vy: VF is the strict comparison, written first; the difference modulo 256 is of
the operands as they stand after that write; with VF as the destination, VF ends with the difference, or with the
flag where ALU_VF_DEST = flag (R89, decisions D8, D28). -/
def Obligations.SubtractionsCompareThenSubtract : Prop :=
  Selects 0xF00F 0x8005 .subVxVy ∧ Selects 0xF00F 0x8007 .subnVxVy ∧
  ∀ (f : Fields) (s : State),
    let a := (s.getV f.x).toNat
    let b := (s.getV f.y).toNat
    (let fl := if b < a then 1 else 0
     let a' := if f.x = 0xF#4 then fl else a
     let b' := if f.y = 0xF#4 then fl else b
     ∃ t : State, exec (.subVxVy f) s = .next t ∧ Frame [.v 0xF#4, .v f.x] s t ∧
      (f.x ≠ 0xF#4 → (t.getV f.x).toNat = (a' + 256 - b') % 256 ∧ (t.getV 0xF#4).toNat = fl) ∧
      (f.x = 0xF#4 → (t.getV 0xF#4).toNat = (if s.params.aluVfDest = .result then (a' + 256 - b') % 256 else fl))) ∧
    (let fl := if a < b then 1 else 0
     let a' := if f.x = 0xF#4 then fl else a
     let b' := if f.y = 0xF#4 then fl else b
     ∃ t : State, exec (.subnVxVy f) s = .next t ∧ Frame [.v 0xF#4, .v f.x] s t ∧
      (f.x ≠ 0xF#4 → (t.getV f.x).toNat = (b' + 256 - a') % 256 ∧ (t.getV 0xF#4).toNat = fl) ∧
      (f.x = 0xF#4 → (t.getV 0xF#4).toNat = (if s.params.aluVfDest = .result then (b' + 256 - a') % 256 else fl)))

/-- R96, R98: SHR_Vx_Vy puts bit 0 into VF and SHL_Vx_Vy bit 4, not the bit shifted out; the shift by one is of V[x]
as it stands after that write; y is never read; with VF as the destination, VF ends with the result, or with the flag
where ALU_VF_DEST = flag (R89, decisions D8, D28). -/
def Obligations.ShiftsTakeTheirFlagBit : Prop :=
  Selects 0xF00F 0x8006 .shrVxVy ∧ Selects 0xF00F 0x8008 .shlVxVy ∧
  ∀ (f : Fields) (s : State),
    let a := (s.getV f.x).toNat
    (let fl := a % 2
     let a' := if f.x = 0xF#4 then fl else a
     ∃ t : State, exec (.shrVxVy f) s = .next t ∧ Frame [.v 0xF#4, .v f.x] s t ∧
      (f.x ≠ 0xF#4 → (t.getV f.x).toNat = a' / 2 ∧ (t.getV 0xF#4).toNat = fl) ∧
      (f.x = 0xF#4 → (t.getV 0xF#4).toNat = (if s.params.aluVfDest = .result then a' / 2 else fl))) ∧
    (let fl := if a.testBit 4 then 1 else 0
     let a' := if f.x = 0xF#4 then fl else a
     ∃ t : State, exec (.shlVxVy f) s = .next t ∧ Frame [.v 0xF#4, .v f.x] s t ∧
      (f.x ≠ 0xF#4 → (t.getV f.x).toNat = (a' * 2) % 256 ∧ (t.getV 0xF#4).toNat = fl) ∧
      (f.x = 0xF#4 → (t.getV 0xF#4).toNat = (if s.params.aluVfDest = .result then (a' * 2) % 256 else fl)))

/-! ### Display -/

/-- R101: CLS makes all 2048 cells unset, not 0, and writes nothing else. -/
def Obligations.ClsUnsetsEveryCell : Prop :=
  Selects 0xFFFF 0x00E0 .cls ∧
  ∀ (f : Fields) (s : State),
    ∃ t : State, exec (.cls f) s = .next t ∧ (∀ idx : Nat, idx < 2048 → t.disp.cell idx = .unset) ∧
      Frame [.disp] s t

/-- R102: DRW_Vx_Vy: from (V[x] mod 64, V[y] mod 32), read before VF is written, each visited cell becomes 0 or 1, its
old bit XOR the sprite bit; no other cell changes; VF is 1 exactly where some lit cell was turned off, else 0. A
sprite that leaves memory raises SpriteOutOfRange with nothing else written; a height of 0 never does. Decisions D7, D9
and D10 of the spec. -/
def Obligations.DrwXorsTheClippedSprite : Prop :=
  Selects 0xF000 0xD000 .drwVxVy ∧
  ∀ (f : Fields) (s : State),
    let x := (s.getV f.x).toNat % 64
    let y := (s.getV f.y).toNat % 32
    (f.n.toNat = 0 ∨ s.i.toNat + f.n.toNat - 1 ≤ 0xFFF →
      ∃ t : State, exec (.drwVxVy f) s = .next t ∧ Frame [.disp, .v 0xF#4] s t ∧
        (∀ idx : Nat, idx < 2048 → visited x y f.n.toNat idx →
          t.disp.cell idx = if xor (s.disp.cell idx).lit (s.spriteBitAt x y idx) then .one else .zero) ∧
        (∀ idx : Nat, idx < 2048 → ¬visited x y f.n.toNat idx → t.disp.cell idx = s.disp.cell idx) ∧
        ((∃ idx : Nat, idx < 2048 ∧ visited x y f.n.toNat idx ∧ (s.disp.cell idx).lit = true ∧
          s.spriteBitAt x y idx = true) → t.getV 0xF#4 = 1) ∧
        ((∀ idx : Nat, idx < 2048 → visited x y f.n.toNat idx → (s.disp.cell idx).lit = true →
          s.spriteBitAt x y idx = false) → t.getV 0xF#4 = 0)) ∧
    (1 ≤ f.n.toNat → 0xFFF < s.i.toNat + f.n.toNat - 1 →
      exec (.drwVxVy f) s = .next { s with status := .faulted (.spriteOutOfRange s.pc s.i f.n) })

/-- R104, which the spec derives: drawing the same sprite a second time with the same I, V[x], V[y] and n restores every visited cell that was
0 or 1, turns every visited unset cell to 0, changes no other cell, and sets VF = 1 if and only if some visited
position whose sprite bit is 1 was not lit before the first draw. -/
def Obligations.DrawingTwiceRestoresThePicture : Prop :=
  ∀ (f g : Fields) (s t u : State),
    exec (.drwVxVy f) s = .next t → t.status = .running → t.i = u.i → u.mem = t.mem → u.disp = t.disp →
    g.n = f.n → u.getV g.x = s.getV f.x → u.getV g.y = s.getV f.y →
    ∃ w : State, exec (.drwVxVy g) u = .next w ∧
      (∀ idx : Nat, idx < 2048 → w.disp.cell idx =
        if visited ((s.getV f.x).toNat % 64) ((s.getV f.y).toNat % 32) f.n.toNat idx ∧ s.disp.cell idx = .unset
        then .zero else s.disp.cell idx) ∧
      (w.getV 0xF#4 = 1 ↔ ∃ idx : Nat, idx < 2048 ∧
        visited ((s.getV f.x).toNat % 64) ((s.getV f.y).toNat % 32) f.n.toNat idx ∧
        s.spriteBitAt ((s.getV f.x).toNat % 64) ((s.getV f.y).toNat % 32) idx = true ∧
        (s.disp.cell idx).lit = false)

/-! ### The whole system, and the end of a run -/

/-- Every move of the whole system, a step or a host timer write, keeps the invariant, from every state that meets it.
The canonical form of memory and the skip request as a field of State are the model's choices (logs 25, 2), and so is
that the host has its move in every state (log 33). -/
def Obligations.EveryMoveKeepsInvariant : Prop :=
  ∀ (m : Move) (s t : State), s.Inv → move m s = .next t → t.Inv

/-- R130 (decision D27): every run of a machine that is running ends in a stated number of steps, or earlier by a fault,
and a run ends in exactly one of the three ways. That STOPPED is said only of a machine that is not parked, on which the
exclusion rests, is the model's reading of "exactly one" (DEDUCED, log 29). -/
def Obligations.RunEndsInExactlyOneWay : Prop :=
  (∀ (k : Nat) (s : State), s.status = .running →
    ∃ (j : Nat) (t : State) (e : RunEnd), j ≤ k ∧ EndsIn j s t e ∧ (j = k ∨ ∃ c : CoreFault, e = .faulted c)) ∧
  (∀ (k : Nat) (s t : State) (e e' : RunEnd), EndsIn k s t e → EndsIn k s t e' → e = e') ∧
  (∀ (j k : Nat) (s t u : State) (c : CoreFault) (e : RunEnd),
    EndsIn j s t (.faulted c) → EndsIn k s u e → k ≤ j)
end

