-- ==== Sys2Proof/Laws/Memory.lean ====
section
/-! SUPPORT. The laws of memory: reading after writing, and that every operation keeps the canonical form. -/

namespace Sys2Proof.Machine

/-- Nothing is listed below the bound a canonical memory starts at. -/
theorem Memory.read_eq_unlisted_of_lt {m : Memory} {lo a : Nat} (h : Memory.wfFrom lo m = true) (ha : a < lo) :
    m.read a = unlistedByte := by
  induction m generalizing lo with
  | nil => rfl
  | cons c rest ih =>
    obtain ⟨k, b⟩ := c
    simp only [Memory.wfFrom, Bool.and_eq_true, decide_eq_true_eq] at h
    obtain ⟨⟨⟨hk, _⟩, _⟩, hr⟩ := h
    have hne : k ≠ a := by omega
    simp only [Memory.read, hne, if_false]
    exact ih hr (by omega)

/-- A canonical memory starting at a bound also starts at any lower one. -/
theorem Memory.wfFrom_mono {m : Memory} {lo lo' : Nat} (h : Memory.wfFrom lo m = true) (hle : lo' ≤ lo) :
    Memory.wfFrom lo' m = true := by
  cases m with
  | nil => rfl
  | cons c rest =>
    simp only [Memory.wfFrom, Bool.and_eq_true, decide_eq_true_eq] at h ⊢
    exact ⟨⟨⟨by omega, h.1.1.2⟩, h.1.2⟩, h.2⟩

/-- A write inside the address space keeps the canonical form. -/
theorem Memory.write_wfFrom {m : Memory} {lo a : Nat} (b : Byte) (h : Memory.wfFrom lo m = true) (hlo : lo ≤ a)
    (ha : a < Config.memSize) : Memory.wfFrom lo (m.write a b) = true := by
  induction m generalizing lo with
  | nil =>
    by_cases hb : b = unlistedByte <;> simp [Memory.write, Memory.wfFrom, hb, hlo, ha]
  | cons c rest ih =>
    obtain ⟨k, c⟩ := c
    have h' := h
    simp only [Memory.wfFrom, Bool.and_eq_true, decide_eq_true_eq] at h'
    obtain ⟨⟨⟨hk, hks⟩, hc⟩, hr⟩ := h'
    simp only [Memory.write]
    split
    · simp only [Memory.wfFrom, Bool.and_eq_true, decide_eq_true_eq]
      exact ⟨⟨⟨hk, hks⟩, hc⟩, ih hr (by omega)⟩
    · split
      · split
        · exact Memory.wfFrom_mono hr (by omega)
        · rename_i hb
          subst_vars
          simp [Memory.wfFrom, hk, hb, hr, ha]
      · split
        · exact h
        · rename_i hb
          have hak : a + 1 ≤ k := by omega
          simp only [Memory.wfFrom, Bool.and_eq_true, decide_eq_true_eq]
          exact ⟨⟨⟨hlo, ha⟩, by simpa using hb⟩, ⟨⟨hak, hks⟩, hc⟩, hr⟩

/-- Every store of an install operation keeps the canonical form (20_memory.md R31). -/
theorem Memory.write_wf {m : Memory} {a : Nat} (b : Byte) (h : m.wf = true) (ha : a < Config.memSize) :
    (m.write a b).wf = true :=
  Memory.write_wfFrom b h (Nat.zero_le a) ha

/-- Read after write, on a canonical memory. -/
theorem Memory.read_write_from {m : Memory} {lo : Nat} (h : Memory.wfFrom lo m = true) (a q : Nat) (b : Byte) :
    (m.write a b).read q = if q = a then b else m.read q := by
  induction m generalizing lo with
  | nil =>
    by_cases hb : b = unlistedByte
    · by_cases hq : q = a <;> simp [Memory.write, Memory.read, hb, hq]
    · by_cases hq : q = a
      · simp [Memory.write, Memory.read, hb, hq]
      · simp [Memory.write, Memory.read, hb, hq, Ne.symm hq]
  | cons c rest ih =>
    obtain ⟨k, c⟩ := c
    simp only [Memory.wfFrom, Bool.and_eq_true, decide_eq_true_eq] at h
    obtain ⟨_, hr⟩ := h
    simp only [Memory.write]
    split
    · simp only [Memory.read, ih hr]
      by_cases hkq : k = q
      · subst hkq; simp; omega
      · simp [hkq]
    · split
      · rename_i hka
        subst hka
        split
        · rename_i hb
          by_cases hq : q = k
          · subst hq
            simp [hb, Memory.read_eq_unlisted_of_lt hr (Nat.lt_succ_self q)]
          · simp [Memory.read, hq, Ne.symm hq]
        · by_cases hq : q = k
          · simp [Memory.read, hq]
          · simp [Memory.read, hq, Ne.symm hq]
      · split
        · rename_i hb
          by_cases hq : q = a
          · subst hq
            have hqk : k ≠ q := by omega
            simp [Memory.read, hqk, hb, Memory.read_eq_unlisted_of_lt hr (by omega : q < k + 1)]
          · simp [hq]
        · by_cases hq : q = a
          · simp [Memory.read, hq]
          · simp [Memory.read, hq, Ne.symm hq]

/-- A byte reads as written, and every other byte as before. -/
theorem Memory.read_write {m : Memory} (h : m.wf = true) (a q : Nat) (b : Byte) :
    (m.write a b).read q = if q = a then b else m.read q :=
  Memory.read_write_from h a q b

/-- An install inside the address space keeps the canonical form (70_reset_and_hazards.md R126, R127). -/
theorem Memory.install_wf {m : Memory} {base : Nat} {bytes : List Nat} (h : m.wf = true)
    (hb : base + bytes.length ≤ Config.memSize) : (m.install base bytes).wf = true := by
  induction bytes generalizing m base with
  | nil => exact h
  | cons b bs ih =>
    simp only [List.length_cons] at hb
    exact ih (Memory.write_wf _ h (by omega)) (by omega)

/-- What an address reads as after an install: the installed byte modulo 256 inside the image, as before outside it
(R126, R127). -/
theorem Memory.read_install {m : Memory} {base : Nat} {bytes : List Nat} (h : m.wf = true)
    (hb : base + bytes.length ≤ Config.memSize) (q : Nat) :
    (m.install base bytes).read q =
      if hq : base ≤ q ∧ q < base + bytes.length then BitVec.ofNat 8 (bytes[q - base]'(by omega)) else m.read q := by
  induction bytes generalizing m base with
  | nil =>
    have hq : ¬(base ≤ q ∧ q < base + ([] : List Nat).length) := by simp
    rw [dif_neg hq]; rfl
  | cons b bs ih =>
    simp only [List.length_cons] at hb
    have hw := Memory.write_wf (BitVec.ofNat 8 b) h (by omega : base < Config.memSize)
    simp only [Memory.install]
    rw [ih hw (by omega), Memory.read_write h]
    by_cases h0 : q = base
    · subst h0
      simp
    · by_cases h1 : base + 1 ≤ q ∧ q < base + 1 + bs.length
      · have h2 : base ≤ q ∧ q < base + (bs.length + 1) := by omega
        have h3 : q - base = (q - (base + 1)) + 1 := by omega
        simp [h1, h2, h3]
      · have h2 : ¬(base ≤ q ∧ q < base + (bs.length + 1)) := by omega
        rw [dif_neg h1, if_neg h0, dif_neg (by simpa only [List.length_cons] using h2)]

/-- The creation state's memory is canonical. -/
theorem Memory.reset_wf : State.reset.mem.wf = true := rfl

end Sys2Proof.Machine
end

