-- ==== Sys2Proof/Laws/State.lean ====
section
/-! SUPPORT. One lemma per field per update of the state, so that no proof unfolds a record update, and the read of a
register or slot after a write. -/

namespace Sys2Proof.Machine

variable (s : State)

/-! ### setV -/

@[simp] theorem State.setV_mem (r : Nibble) (b : Byte) : (s.setV r b).mem = s.mem := rfl
@[simp] theorem State.setV_v (r : Nibble) (b : Byte) : (s.setV r b).v = s.v.set r.toNat b r.isLt := rfl
@[simp] theorem State.setV_pc (r : Nibble) (b : Byte) : (s.setV r b).pc = s.pc := rfl
@[simp] theorem State.setV_i (r : Nibble) (b : Byte) : (s.setV r b).i = s.i := rfl
@[simp] theorem State.setV_sp (r : Nibble) (b : Byte) : (s.setV r b).sp = s.sp := rfl
@[simp] theorem State.setV_stack (r : Nibble) (b : Byte) : (s.setV r b).stack = s.stack := rfl
@[simp] theorem State.setV_dt (r : Nibble) (b : Byte) : (s.setV r b).dt = s.dt := rfl
@[simp] theorem State.setV_st (r : Nibble) (b : Byte) : (s.setV r b).st = s.st := rfl
@[simp] theorem State.setV_disp (r : Nibble) (b : Byte) : (s.setV r b).disp = s.disp := rfl
@[simp] theorem State.setV_status (r : Nibble) (b : Byte) : (s.setV r b).status = s.status := rfl
@[simp] theorem State.setV_skip (r : Nibble) (b : Byte) : (s.setV r b).skip = s.skip := rfl
@[simp] theorem State.setV_draws (r : Nibble) (b : Byte) : (s.setV r b).draws = s.draws := rfl
@[simp] theorem State.setV_params (r : Nibble) (b : Byte) : (s.setV r b).params = s.params := rfl

/-! ### setSlot -/

@[simp] theorem State.setSlot_mem (k : Fin 16) (w : Word) : (s.setSlot k w).mem = s.mem := rfl
@[simp] theorem State.setSlot_v (k : Fin 16) (w : Word) : (s.setSlot k w).v = s.v := rfl
@[simp] theorem State.setSlot_pc (k : Fin 16) (w : Word) : (s.setSlot k w).pc = s.pc := rfl
@[simp] theorem State.setSlot_i (k : Fin 16) (w : Word) : (s.setSlot k w).i = s.i := rfl
@[simp] theorem State.setSlot_sp (k : Fin 16) (w : Word) : (s.setSlot k w).sp = s.sp := rfl
@[simp] theorem State.setSlot_stack (k : Fin 16) (w : Word) : (s.setSlot k w).stack = s.stack.set k.val w k.isLt := rfl
@[simp] theorem State.setSlot_dt (k : Fin 16) (w : Word) : (s.setSlot k w).dt = s.dt := rfl
@[simp] theorem State.setSlot_st (k : Fin 16) (w : Word) : (s.setSlot k w).st = s.st := rfl
@[simp] theorem State.setSlot_disp (k : Fin 16) (w : Word) : (s.setSlot k w).disp = s.disp := rfl
@[simp] theorem State.setSlot_status (k : Fin 16) (w : Word) : (s.setSlot k w).status = s.status := rfl
@[simp] theorem State.setSlot_skip (k : Fin 16) (w : Word) : (s.setSlot k w).skip = s.skip := rfl
@[simp] theorem State.setSlot_draws (k : Fin 16) (w : Word) : (s.setSlot k w).draws = s.draws := rfl
@[simp] theorem State.setSlot_params (k : Fin 16) (w : Word) : (s.setSlot k w).params = s.params := rfl

/-! ### setPc -/

@[simp] theorem State.setPc_mem (w : Word) : (s.setPc w).mem = s.mem := rfl
@[simp] theorem State.setPc_v (w : Word) : (s.setPc w).v = s.v := rfl
@[simp] theorem State.setPc_pc (w : Word) : (s.setPc w).pc = w := rfl
@[simp] theorem State.setPc_i (w : Word) : (s.setPc w).i = s.i := rfl
@[simp] theorem State.setPc_sp (w : Word) : (s.setPc w).sp = s.sp := rfl
@[simp] theorem State.setPc_stack (w : Word) : (s.setPc w).stack = s.stack := rfl
@[simp] theorem State.setPc_dt (w : Word) : (s.setPc w).dt = s.dt := rfl
@[simp] theorem State.setPc_st (w : Word) : (s.setPc w).st = s.st := rfl
@[simp] theorem State.setPc_disp (w : Word) : (s.setPc w).disp = s.disp := rfl
@[simp] theorem State.setPc_status (w : Word) : (s.setPc w).status = s.status := rfl
@[simp] theorem State.setPc_skip (w : Word) : (s.setPc w).skip = s.skip := rfl
@[simp] theorem State.setPc_draws (w : Word) : (s.setPc w).draws = s.draws := rfl
@[simp] theorem State.setPc_params (w : Word) : (s.setPc w).params = s.params := rfl

/-! ### setI -/

@[simp] theorem State.setI_mem (w : Word) : (s.setI w).mem = s.mem := rfl
@[simp] theorem State.setI_v (w : Word) : (s.setI w).v = s.v := rfl
@[simp] theorem State.setI_pc (w : Word) : (s.setI w).pc = s.pc := rfl
@[simp] theorem State.setI_i (w : Word) : (s.setI w).i = w := rfl
@[simp] theorem State.setI_sp (w : Word) : (s.setI w).sp = s.sp := rfl
@[simp] theorem State.setI_stack (w : Word) : (s.setI w).stack = s.stack := rfl
@[simp] theorem State.setI_dt (w : Word) : (s.setI w).dt = s.dt := rfl
@[simp] theorem State.setI_st (w : Word) : (s.setI w).st = s.st := rfl
@[simp] theorem State.setI_disp (w : Word) : (s.setI w).disp = s.disp := rfl
@[simp] theorem State.setI_status (w : Word) : (s.setI w).status = s.status := rfl
@[simp] theorem State.setI_skip (w : Word) : (s.setI w).skip = s.skip := rfl
@[simp] theorem State.setI_draws (w : Word) : (s.setI w).draws = s.draws := rfl
@[simp] theorem State.setI_params (w : Word) : (s.setI w).params = s.params := rfl

/-! ### setSp -/

@[simp] theorem State.setSp_mem (k : Fin 16) : (s.setSp k).mem = s.mem := rfl
@[simp] theorem State.setSp_v (k : Fin 16) : (s.setSp k).v = s.v := rfl
@[simp] theorem State.setSp_pc (k : Fin 16) : (s.setSp k).pc = s.pc := rfl
@[simp] theorem State.setSp_i (k : Fin 16) : (s.setSp k).i = s.i := rfl
@[simp] theorem State.setSp_sp (k : Fin 16) : (s.setSp k).sp = k := rfl
@[simp] theorem State.setSp_stack (k : Fin 16) : (s.setSp k).stack = s.stack := rfl
@[simp] theorem State.setSp_dt (k : Fin 16) : (s.setSp k).dt = s.dt := rfl
@[simp] theorem State.setSp_st (k : Fin 16) : (s.setSp k).st = s.st := rfl
@[simp] theorem State.setSp_disp (k : Fin 16) : (s.setSp k).disp = s.disp := rfl
@[simp] theorem State.setSp_status (k : Fin 16) : (s.setSp k).status = s.status := rfl
@[simp] theorem State.setSp_skip (k : Fin 16) : (s.setSp k).skip = s.skip := rfl
@[simp] theorem State.setSp_draws (k : Fin 16) : (s.setSp k).draws = s.draws := rfl
@[simp] theorem State.setSp_params (k : Fin 16) : (s.setSp k).params = s.params := rfl

/-! ### setDt -/

@[simp] theorem State.setDt_mem (b : Byte) : (s.setDt b).mem = s.mem := rfl
@[simp] theorem State.setDt_v (b : Byte) : (s.setDt b).v = s.v := rfl
@[simp] theorem State.setDt_pc (b : Byte) : (s.setDt b).pc = s.pc := rfl
@[simp] theorem State.setDt_i (b : Byte) : (s.setDt b).i = s.i := rfl
@[simp] theorem State.setDt_sp (b : Byte) : (s.setDt b).sp = s.sp := rfl
@[simp] theorem State.setDt_stack (b : Byte) : (s.setDt b).stack = s.stack := rfl
@[simp] theorem State.setDt_dt (b : Byte) : (s.setDt b).dt = b := rfl
@[simp] theorem State.setDt_st (b : Byte) : (s.setDt b).st = s.st := rfl
@[simp] theorem State.setDt_disp (b : Byte) : (s.setDt b).disp = s.disp := rfl
@[simp] theorem State.setDt_status (b : Byte) : (s.setDt b).status = s.status := rfl
@[simp] theorem State.setDt_skip (b : Byte) : (s.setDt b).skip = s.skip := rfl
@[simp] theorem State.setDt_draws (b : Byte) : (s.setDt b).draws = s.draws := rfl
@[simp] theorem State.setDt_params (b : Byte) : (s.setDt b).params = s.params := rfl

/-! ### setSt -/

@[simp] theorem State.setSt_mem (b : Byte) : (s.setSt b).mem = s.mem := rfl
@[simp] theorem State.setSt_v (b : Byte) : (s.setSt b).v = s.v := rfl
@[simp] theorem State.setSt_pc (b : Byte) : (s.setSt b).pc = s.pc := rfl
@[simp] theorem State.setSt_i (b : Byte) : (s.setSt b).i = s.i := rfl
@[simp] theorem State.setSt_sp (b : Byte) : (s.setSt b).sp = s.sp := rfl
@[simp] theorem State.setSt_stack (b : Byte) : (s.setSt b).stack = s.stack := rfl
@[simp] theorem State.setSt_dt (b : Byte) : (s.setSt b).dt = s.dt := rfl
@[simp] theorem State.setSt_st (b : Byte) : (s.setSt b).st = b := rfl
@[simp] theorem State.setSt_disp (b : Byte) : (s.setSt b).disp = s.disp := rfl
@[simp] theorem State.setSt_status (b : Byte) : (s.setSt b).status = s.status := rfl
@[simp] theorem State.setSt_skip (b : Byte) : (s.setSt b).skip = s.skip := rfl
@[simp] theorem State.setSt_draws (b : Byte) : (s.setSt b).draws = s.draws := rfl
@[simp] theorem State.setSt_params (b : Byte) : (s.setSt b).params = s.params := rfl

/-! ### setDisp -/

@[simp] theorem State.setDisp_mem (d : Display) : (s.setDisp d).mem = s.mem := rfl
@[simp] theorem State.setDisp_v (d : Display) : (s.setDisp d).v = s.v := rfl
@[simp] theorem State.setDisp_pc (d : Display) : (s.setDisp d).pc = s.pc := rfl
@[simp] theorem State.setDisp_i (d : Display) : (s.setDisp d).i = s.i := rfl
@[simp] theorem State.setDisp_sp (d : Display) : (s.setDisp d).sp = s.sp := rfl
@[simp] theorem State.setDisp_stack (d : Display) : (s.setDisp d).stack = s.stack := rfl
@[simp] theorem State.setDisp_dt (d : Display) : (s.setDisp d).dt = s.dt := rfl
@[simp] theorem State.setDisp_st (d : Display) : (s.setDisp d).st = s.st := rfl
@[simp] theorem State.setDisp_disp (d : Display) : (s.setDisp d).disp = d := rfl
@[simp] theorem State.setDisp_status (d : Display) : (s.setDisp d).status = s.status := rfl
@[simp] theorem State.setDisp_skip (d : Display) : (s.setDisp d).skip = s.skip := rfl
@[simp] theorem State.setDisp_draws (d : Display) : (s.setDisp d).draws = s.draws := rfl
@[simp] theorem State.setDisp_params (d : Display) : (s.setDisp d).params = s.params := rfl

/-! ### faultedWith -/

@[simp] theorem State.faultedWith_mem (e : CoreFault) : (s.faultedWith e).mem = s.mem := rfl
@[simp] theorem State.faultedWith_v (e : CoreFault) : (s.faultedWith e).v = s.v := rfl
@[simp] theorem State.faultedWith_pc (e : CoreFault) : (s.faultedWith e).pc = s.pc := rfl
@[simp] theorem State.faultedWith_i (e : CoreFault) : (s.faultedWith e).i = s.i := rfl
@[simp] theorem State.faultedWith_sp (e : CoreFault) : (s.faultedWith e).sp = s.sp := rfl
@[simp] theorem State.faultedWith_stack (e : CoreFault) : (s.faultedWith e).stack = s.stack := rfl
@[simp] theorem State.faultedWith_dt (e : CoreFault) : (s.faultedWith e).dt = s.dt := rfl
@[simp] theorem State.faultedWith_st (e : CoreFault) : (s.faultedWith e).st = s.st := rfl
@[simp] theorem State.faultedWith_disp (e : CoreFault) : (s.faultedWith e).disp = s.disp := rfl
@[simp] theorem State.faultedWith_status (e : CoreFault) : (s.faultedWith e).status = .faulted e := rfl
@[simp] theorem State.faultedWith_skip (e : CoreFault) : (s.faultedWith e).skip = s.skip := rfl
@[simp] theorem State.faultedWith_draws (e : CoreFault) : (s.faultedWith e).draws = s.draws := rfl
@[simp] theorem State.faultedWith_params (e : CoreFault) : (s.faultedWith e).params = s.params := rfl

/-! ### afterDraw -/

@[simp] theorem State.afterDraw_mem : (s.afterDraw).mem = s.mem := rfl
@[simp] theorem State.afterDraw_v : (s.afterDraw).v = s.v := rfl
@[simp] theorem State.afterDraw_pc : (s.afterDraw).pc = s.pc := rfl
@[simp] theorem State.afterDraw_i : (s.afterDraw).i = s.i := rfl
@[simp] theorem State.afterDraw_sp : (s.afterDraw).sp = s.sp := rfl
@[simp] theorem State.afterDraw_stack : (s.afterDraw).stack = s.stack := rfl
@[simp] theorem State.afterDraw_dt : (s.afterDraw).dt = s.dt := rfl
@[simp] theorem State.afterDraw_st : (s.afterDraw).st = s.st := rfl
@[simp] theorem State.afterDraw_disp : (s.afterDraw).disp = s.disp := rfl
@[simp] theorem State.afterDraw_status : (s.afterDraw).status = s.status := rfl
@[simp] theorem State.afterDraw_skip : (s.afterDraw).skip = s.skip := rfl
@[simp] theorem State.afterDraw_draws : (s.afterDraw).draws = s.draws + 1 := rfl
@[simp] theorem State.afterDraw_params : (s.afterDraw).params = s.params := rfl

/-! ### randomInto -/

@[simp] theorem State.randomInto_mem (x : Nibble) (kk : Byte) : (s.randomInto x kk).mem = s.mem := rfl
@[simp] theorem State.randomInto_v (x : Nibble) (kk : Byte) : (s.randomInto x kk).v = s.v.set x.toNat (s.nextRandom &&& kk) x.isLt := rfl
@[simp] theorem State.randomInto_pc (x : Nibble) (kk : Byte) : (s.randomInto x kk).pc = s.pc := rfl
@[simp] theorem State.randomInto_i (x : Nibble) (kk : Byte) : (s.randomInto x kk).i = s.i := rfl
@[simp] theorem State.randomInto_sp (x : Nibble) (kk : Byte) : (s.randomInto x kk).sp = s.sp := rfl
@[simp] theorem State.randomInto_stack (x : Nibble) (kk : Byte) : (s.randomInto x kk).stack = s.stack := rfl
@[simp] theorem State.randomInto_dt (x : Nibble) (kk : Byte) : (s.randomInto x kk).dt = s.dt := rfl
@[simp] theorem State.randomInto_st (x : Nibble) (kk : Byte) : (s.randomInto x kk).st = s.st := rfl
@[simp] theorem State.randomInto_disp (x : Nibble) (kk : Byte) : (s.randomInto x kk).disp = s.disp := rfl
@[simp] theorem State.randomInto_status (x : Nibble) (kk : Byte) : (s.randomInto x kk).status = s.status := rfl
@[simp] theorem State.randomInto_skip (x : Nibble) (kk : Byte) : (s.randomInto x kk).skip = s.skip := rfl
@[simp] theorem State.randomInto_draws (x : Nibble) (kk : Byte) : (s.randomInto x kk).draws = s.draws + 1 := rfl
@[simp] theorem State.randomInto_params (x : Nibble) (kk : Byte) : (s.randomInto x kk).params = s.params := rfl

/-! ### advance -/

@[simp] theorem State.advance_mem : (s.advance).mem = s.mem := rfl
@[simp] theorem State.advance_v : (s.advance).v = s.v := rfl
@[simp] theorem State.advance_pc : (s.advance).pc = s.pc + (if s.skip then 4 else 2) := rfl
@[simp] theorem State.advance_i : (s.advance).i = s.i := rfl
@[simp] theorem State.advance_sp : (s.advance).sp = s.sp := rfl
@[simp] theorem State.advance_stack : (s.advance).stack = s.stack := rfl
@[simp] theorem State.advance_dt : (s.advance).dt = s.dt := rfl
@[simp] theorem State.advance_st : (s.advance).st = s.st := rfl
@[simp] theorem State.advance_disp : (s.advance).disp = s.disp := rfl
@[simp] theorem State.advance_status : (s.advance).status = s.status := rfl
@[simp] theorem State.advance_skip : (s.advance).skip = false := rfl
@[simp] theorem State.advance_draws : (s.advance).draws = s.draws := rfl
@[simp] theorem State.advance_params : (s.advance).params = s.params := rfl

/-! ### clearSkip -/

@[simp] theorem State.clearSkip_mem : s.clearSkip.mem = s.mem := rfl
@[simp] theorem State.clearSkip_v : s.clearSkip.v = s.v := rfl
@[simp] theorem State.clearSkip_pc : s.clearSkip.pc = s.pc := rfl
@[simp] theorem State.clearSkip_i : s.clearSkip.i = s.i := rfl
@[simp] theorem State.clearSkip_sp : s.clearSkip.sp = s.sp := rfl
@[simp] theorem State.clearSkip_stack : s.clearSkip.stack = s.stack := rfl
@[simp] theorem State.clearSkip_dt : s.clearSkip.dt = s.dt := rfl
@[simp] theorem State.clearSkip_st : s.clearSkip.st = s.st := rfl
@[simp] theorem State.clearSkip_disp : s.clearSkip.disp = s.disp := rfl
@[simp] theorem State.clearSkip_status : s.clearSkip.status = s.status := rfl
@[simp] theorem State.clearSkip_skip : s.clearSkip.skip = false := rfl
@[simp] theorem State.clearSkip_draws : s.clearSkip.draws = s.draws := rfl
@[simp] theorem State.clearSkip_params : s.clearSkip.params = s.params := rfl

/-- Where no skip request is pending, clearing it changes nothing. -/
theorem State.clearSkip_of_not_skip {s : State} (h : s.skip = false) : s.clearSkip = s := by
  cases s; simp_all [State.clearSkip]

/-! ### skipIf -/

@[simp] theorem State.skipIf_mem (c : Bool) : (s.skipIf c).mem = s.mem := by
  cases c <;> rfl
@[simp] theorem State.skipIf_v (c : Bool) : (s.skipIf c).v = s.v := by
  cases c <;> rfl
@[simp] theorem State.skipIf_pc (c : Bool) : (s.skipIf c).pc = s.pc := by
  cases c <;> rfl
@[simp] theorem State.skipIf_i (c : Bool) : (s.skipIf c).i = s.i := by
  cases c <;> rfl
@[simp] theorem State.skipIf_sp (c : Bool) : (s.skipIf c).sp = s.sp := by
  cases c <;> rfl
@[simp] theorem State.skipIf_stack (c : Bool) : (s.skipIf c).stack = s.stack := by
  cases c <;> rfl
@[simp] theorem State.skipIf_dt (c : Bool) : (s.skipIf c).dt = s.dt := by
  cases c <;> rfl
@[simp] theorem State.skipIf_st (c : Bool) : (s.skipIf c).st = s.st := by
  cases c <;> rfl
@[simp] theorem State.skipIf_disp (c : Bool) : (s.skipIf c).disp = s.disp := by
  cases c <;> rfl
@[simp] theorem State.skipIf_status (c : Bool) : (s.skipIf c).status = s.status := by
  cases c <;> rfl
@[simp] theorem State.skipIf_skip (c : Bool) : (s.skipIf c).skip = (c || s.skip) := by
  cases c <;> rfl
@[simp] theorem State.skipIf_draws (c : Bool) : (s.skipIf c).draws = s.draws := by
  cases c <;> rfl
@[simp] theorem State.skipIf_params (c : Bool) : (s.skipIf c).params = s.params := by
  cases c <;> rfl

/-! ### flagThenResult: only registers change -/

@[simp] theorem State.flagThenResult_mem (x : Nibble) (fl : Byte) (g : State → Byte) :
    (s.flagThenResult x fl g).mem = s.mem := by
  unfold State.flagThenResult; split <;> try split
  all_goals rfl
@[simp] theorem State.flagThenResult_pc (x : Nibble) (fl : Byte) (g : State → Byte) :
    (s.flagThenResult x fl g).pc = s.pc := by
  unfold State.flagThenResult; split <;> try split
  all_goals rfl
@[simp] theorem State.flagThenResult_i (x : Nibble) (fl : Byte) (g : State → Byte) :
    (s.flagThenResult x fl g).i = s.i := by
  unfold State.flagThenResult; split <;> try split
  all_goals rfl
@[simp] theorem State.flagThenResult_sp (x : Nibble) (fl : Byte) (g : State → Byte) :
    (s.flagThenResult x fl g).sp = s.sp := by
  unfold State.flagThenResult; split <;> try split
  all_goals rfl
@[simp] theorem State.flagThenResult_stack (x : Nibble) (fl : Byte) (g : State → Byte) :
    (s.flagThenResult x fl g).stack = s.stack := by
  unfold State.flagThenResult; split <;> try split
  all_goals rfl
@[simp] theorem State.flagThenResult_dt (x : Nibble) (fl : Byte) (g : State → Byte) :
    (s.flagThenResult x fl g).dt = s.dt := by
  unfold State.flagThenResult; split <;> try split
  all_goals rfl
@[simp] theorem State.flagThenResult_st (x : Nibble) (fl : Byte) (g : State → Byte) :
    (s.flagThenResult x fl g).st = s.st := by
  unfold State.flagThenResult; split <;> try split
  all_goals rfl
@[simp] theorem State.flagThenResult_disp (x : Nibble) (fl : Byte) (g : State → Byte) :
    (s.flagThenResult x fl g).disp = s.disp := by
  unfold State.flagThenResult; split <;> try split
  all_goals rfl
@[simp] theorem State.flagThenResult_status (x : Nibble) (fl : Byte) (g : State → Byte) :
    (s.flagThenResult x fl g).status = s.status := by
  unfold State.flagThenResult; split <;> try split
  all_goals rfl
@[simp] theorem State.flagThenResult_skip (x : Nibble) (fl : Byte) (g : State → Byte) :
    (s.flagThenResult x fl g).skip = s.skip := by
  unfold State.flagThenResult; split <;> try split
  all_goals rfl
@[simp] theorem State.flagThenResult_draws (x : Nibble) (fl : Byte) (g : State → Byte) :
    (s.flagThenResult x fl g).draws = s.draws := by
  unfold State.flagThenResult; split <;> try split
  all_goals rfl
@[simp] theorem State.flagThenResult_params (x : Nibble) (fl : Byte) (g : State → Byte) :
    (s.flagThenResult x fl g).params = s.params := by
  unfold State.flagThenResult; split <;> try split
  all_goals rfl

/-! ### Reading a register or a slot after a write -/

/-- A register reads as written (10_state.md R12, R13). -/
@[simp] theorem State.getV_setV_self (r : Nibble) (b : Byte) : (s.setV r b).getV r = b := by
  simp [State.getV]

/-- A write to one register leaves every other one as it was. -/
theorem State.getV_setV_of_ne {r q : Nibble} (b : Byte) (h : q ≠ r) : (s.setV r b).getV q = s.getV q := by
  have hn : r.toNat ≠ q.toNat := fun e => h (BitVec.eq_of_toNat_eq e.symm)
  simp [State.getV, hn]

/-- The read of any register after a write. -/
theorem State.getV_setV (r q : Nibble) (b : Byte) : (s.setV r b).getV q = if q = r then b else s.getV q := by
  by_cases h : q = r
  · subst h; simp
  · simp [h, State.getV_setV_of_ne]

/-- Registers depend on the field `v` alone. -/
theorem State.getV_congr {s t : State} (h : t.v = s.v) (r : Nibble) : t.getV r = s.getV r := by
  simp [State.getV, h]

/-- A slot reads as written (10_state.md R20). -/
@[simp] theorem State.slot_setSlot_self (k : Fin 16) (w : Word) : (s.setSlot k w).slot k = w := by
  simp [State.slot]

/-- The read of any slot after a write. -/
theorem State.slot_setSlot (k j : Fin 16) (w : Word) :
    (s.setSlot k w).slot j = if j = k then w else s.slot j := by
  by_cases h : j = k
  · subst h; simp
  · have hn : k.val ≠ j.val := fun e => h (Fin.ext e.symm)
    simp [State.slot, h, hn]

/-- Slots depend on the field `stack` alone. -/
theorem State.slot_congr {s t : State} (h : t.stack = s.stack) (k : Fin 16) : t.slot k = s.slot k := by
  simp [State.slot, h]

/-! ### Registers and slots through the updates that leave them alone -/

@[simp] theorem State.getV_setSlot (k : Fin 16) (w : Word) (r : Nibble) : (s.setSlot k w).getV r = s.getV r :=
  State.getV_congr (by simp) r
@[simp] theorem State.getV_setPc (w : Word) (r : Nibble) : (s.setPc w).getV r = s.getV r :=
  State.getV_congr (by simp) r
@[simp] theorem State.getV_setI (w : Word) (r : Nibble) : (s.setI w).getV r = s.getV r :=
  State.getV_congr (by simp) r
@[simp] theorem State.getV_setSp (k : Fin 16) (r : Nibble) : (s.setSp k).getV r = s.getV r :=
  State.getV_congr (by simp) r
@[simp] theorem State.getV_setDt (b : Byte) (r : Nibble) : (s.setDt b).getV r = s.getV r :=
  State.getV_congr (by simp) r
@[simp] theorem State.getV_setSt (b : Byte) (r : Nibble) : (s.setSt b).getV r = s.getV r :=
  State.getV_congr (by simp) r
@[simp] theorem State.getV_setDisp (d : Display) (r : Nibble) : (s.setDisp d).getV r = s.getV r :=
  State.getV_congr (by simp) r
@[simp] theorem State.getV_faultedWith (e : CoreFault) (r : Nibble) : (s.faultedWith e).getV r = s.getV r :=
  State.getV_congr (by simp) r
@[simp] theorem State.getV_afterDraw (r : Nibble) : (s.afterDraw).getV r = s.getV r :=
  State.getV_congr (by simp) r
@[simp] theorem State.getV_clearSkip (r : Nibble) : s.clearSkip.getV r = s.getV r :=
  State.getV_congr (by simp) r
@[simp] theorem State.getV_skipIf (c : Bool) (r : Nibble) : (s.skipIf c).getV r = s.getV r :=
  State.getV_congr (by simp) r
@[simp] theorem State.getV_advance (r : Nibble) : (s.advance).getV r = s.getV r :=
  State.getV_congr (by simp) r
@[simp] theorem State.slot_setV (r : Nibble) (b : Byte) (k : Fin 16) : (s.setV r b).slot k = s.slot k :=
  State.slot_congr (by simp) k
@[simp] theorem State.slot_setPc (w : Word) (k : Fin 16) : (s.setPc w).slot k = s.slot k :=
  State.slot_congr (by simp) k
@[simp] theorem State.slot_setI (w : Word) (k : Fin 16) : (s.setI w).slot k = s.slot k :=
  State.slot_congr (by simp) k
@[simp] theorem State.slot_setSp (j k : Fin 16) : (s.setSp j).slot k = s.slot k :=
  State.slot_congr (by simp) k
@[simp] theorem State.slot_setDt (b : Byte) (k : Fin 16) : (s.setDt b).slot k = s.slot k :=
  State.slot_congr (by simp) k
@[simp] theorem State.slot_setSt (b : Byte) (k : Fin 16) : (s.setSt b).slot k = s.slot k :=
  State.slot_congr (by simp) k
@[simp] theorem State.slot_setDisp (d : Display) (k : Fin 16) : (s.setDisp d).slot k = s.slot k :=
  State.slot_congr (by simp) k
@[simp] theorem State.slot_faultedWith (e : CoreFault) (k : Fin 16) : (s.faultedWith e).slot k = s.slot k :=
  State.slot_congr (by simp) k
@[simp] theorem State.slot_afterDraw (k : Fin 16) : (s.afterDraw).slot k = s.slot k :=
  State.slot_congr (by simp) k
@[simp] theorem State.slot_randomInto (x : Nibble) (kk : Byte) (k : Fin 16) : (s.randomInto x kk).slot k = s.slot k :=
  State.slot_congr (by simp) k
@[simp] theorem State.slot_clearSkip (k : Fin 16) : s.clearSkip.slot k = s.slot k :=
  State.slot_congr (by simp) k
@[simp] theorem State.slot_skipIf (c : Bool) (k : Fin 16) : (s.skipIf c).slot k = s.slot k :=
  State.slot_congr (by simp) k
@[simp] theorem State.slot_advance (k : Fin 16) : (s.advance).slot k = s.slot k :=
  State.slot_congr (by simp) k
@[simp] theorem State.slot_flagThenResult (x : Nibble) (fl : Byte) (g : State → Byte) (k : Fin 16) : (s.flagThenResult x fl g).slot k = s.slot k :=
  State.slot_congr (by simp) k

/-- The read of any register after a random draw into one (43_loads_and_immediates.md R84). -/
theorem State.getV_randomInto (x q : Nibble) (kk : Byte) :
    (s.randomInto x kk).getV q = if q = x then s.nextRandom &&& kk else s.getV q := by
  simp [State.randomInto, State.getV_setV]

end Sys2Proof.Machine
end

