-- ==== Sys2Proof/Laws/Cycle.lean ====
section
/-! SUPPORT. What the fetch, the advance and the cycle around an Executor can do, said once (40_step_cycle.md). -/

namespace Sys2Proof.Machine

/-- Two bytes joined high byte first, as a number (20_memory.md R33). -/
theorem opcodeOfBytes_eq (hi lo : Byte) : opcodeOfBytes hi lo = BitVec.ofNat 16 (hi.toNat * 256 + lo.toNat) := by
  apply BitVec.eq_of_toNat_eq
  have h1 := hi.isLt
  have h2 := lo.isLt
  rw [opcodeOfBytes, BitVec.toNat_append, BitVec.toNat_ofNat, ← Nat.shiftLeft_add_eq_or_of_lt h2, Nat.shiftLeft_eq]
  omega

/-- The bytes of an opcode in memory order join to the opcode. -/
theorem opcodeOfBytes_split (op : Opcode) : opcodeOfBytes (op.extractLsb' 8 8) (op.extractLsb' 0 8) = op := by
  apply BitVec.eq_of_toNat_eq
  have h := op.isLt
  rw [opcodeOfBytes_eq]
  simp only [BitVec.toNat_ofNat, BitVec.extractLsb'_toNat, Nat.shiftRight_eq_div_pow]
  omega

/-- The fetch, in the spec's arithmetic (40_step_cycle.md R65). -/
theorem State.fetch_eq (s : State) :
    s.fetch = if s.pc.toNat + 1 < Config.memSize then some s.opcodeAtPc else none := by
  simp only [State.fetch, opcodeOfBytes_eq, State.opcodeAtPc]

/-- A fetch in range reads the opcode at pc. -/
theorem State.fetch_of_fetchable {s : State} (h : s.fetchable) : s.fetch = some s.opcodeAtPc := by
  rw [State.fetch_eq, if_pos (by unfold State.fetchable at h; simp only [Config.memSize]; omega)]

/-- A fetch out of range reads nothing. -/
theorem State.fetch_of_not_fetchable {s : State} (h : ¬s.fetchable) : s.fetch = none := by
  rw [State.fetch_eq, if_neg (by unfold State.fetchable at h; simp only [Config.memSize]; omega)]

/-- After an Executor that raised nothing the Stepper advances. -/
theorem State.afterExecute_of_running {s : State} (h : s.status = .running) : s.afterExecute = s.advance := by
  simp [State.afterExecute, h]

/-- After an Executor that raised, nothing more happens. -/
theorem State.afterExecute_of_faulted {s : State} {e : CoreFault} (h : s.status = .faulted e) :
    s.afterExecute = s := by
  simp [State.afterExecute, h]

/-- The advance writes only pc and the skip request. -/
theorem State.afterExecute_cases (s : State) :
    (s.status = .running ∧ s.afterExecute = s.advance) ∨ (∃ e, s.status = .faulted e ∧ s.afterExecute = s) := by
  cases h : s.status with
  | running => exact .inl ⟨rfl, State.afterExecute_of_running h⟩
  | faulted e => exact .inr ⟨e, rfl, State.afterExecute_of_faulted h⟩

variable {execute : Instr → State → Result} {s t : State}

/-- No step from a faulted machine (60_exceptions.md R109). -/
theorem cycle_of_faulted {e : CoreFault} (h : s.status = .faulted e) : cycle execute s = .fault (.halted e) := by
  simp [cycle, h]

/-- A fetch out of range ends the cycle with its fault (R65). -/
theorem cycle_of_not_fetchable (hr : s.status = .running) (hf : ¬s.fetchable) :
    cycle execute s = .next (s.faultedWith (.fetchOutOfRange s.pc)) := by
  simp [cycle, hr, State.fetch_of_not_fetchable hf, raise]

/-- An undecodable opcode ends the cycle with its fault (R66). -/
theorem cycle_of_undecodable {e : DecodeReject} (hr : s.status = .running) (hf : s.fetchable)
    (hd : decodeOpcode s.opcodeAtPc = .error e) :
    cycle execute s = .next (s.faultedWith (.decodeError s.opcodeAtPc)) := by
  simp [cycle, hr, State.fetch_of_fetchable hf, hd, raise]

/-- A decoded instruction is executed with no skip request pending, and the advance follows (R67 to R70). -/
theorem cycle_of_decoded {i : Instr} (hi : s.atInstr i) :
    cycle execute s = match execute i s.clearSkip with
      | .next u => .next u.afterExecute
      | .fault r => .fault r
      | .refused r => .refused r := by
  unfold cycle
  rw [State.fetch_of_fetchable hi.2.1]
  split
  · rename_i h; rw [hi.1] at h; cases h
  · simp only [hi.2.2]
    all_goals rfl

/-- Everything a cycle that answers a next state can have done (R70, 60_exceptions.md R112). -/
theorem cycle_cases (h : cycle execute s = .next t) :
    s.status = .running ∧
      ((¬s.fetchable ∧ t = s.faultedWith (.fetchOutOfRange s.pc)) ∨
      (s.fetchable ∧ (∃ e, decodeOpcode s.opcodeAtPc = .error e) ∧ t = s.faultedWith (.decodeError s.opcodeAtPc)) ∨
      (∃ i u, s.atInstr i ∧ execute i s.clearSkip = .next u ∧ t = u.afterExecute)) := by
  have hs : s.status = .running := by
    rcases hs : s.status with _ | e
    · rfl
    · rw [cycle_of_faulted hs] at h; cases h
  refine ⟨hs, ?_⟩
  by_cases hf : s.fetchable
  · rcases hd : decodeOpcode s.opcodeAtPc with e | i
    · rw [cycle_of_undecodable hs hf hd] at h
      cases h
      exact .inr (.inl ⟨hf, ⟨e, rfl⟩, rfl⟩)
    · have hi : s.atInstr i := ⟨hs, hf, hd⟩
      rw [cycle_of_decoded hi] at h
      rcases hx : execute i s.clearSkip with u | r | r <;> rw [hx] at h <;> cases h
      exact .inr (.inr ⟨i, u, hi, hx, rfl⟩)
  · rw [cycle_of_not_fetchable hs hf] at h
    cases h
    exact .inl ⟨hf, rfl⟩

/-- The opcode placed for the next fetch is the one fetched (log 21). -/
theorem State.fetch_placeOpcode (s : State) (op : Opcode) (h : s.mem.wf = true) :
    (s.placeOpcode op).fetch = some op := by
  have key : ∀ a : Word, a.toNat + 1 < Config.memSize →
      ∀ m, m = (s.mem.write a.toNat (op.extractLsb' 8 8)).write (a.toNat + 1) (op.extractLsb' 0 8) →
        opcodeOfBytes (Memory.read m a.toNat) (Memory.read m (a.toNat + 1)) = op := by
    intro a ha m hm
    have hw := Memory.write_wf (op.extractLsb' 8 8) h (by omega : a.toNat < Config.memSize)
    subst hm
    rw [Memory.read_write hw, Memory.read_write hw, if_neg (by omega), if_pos rfl, Memory.read_write h, if_pos rfl,
      opcodeOfBytes_split]
  by_cases hp : s.pc.toNat + 1 < Config.memSize
  · simp only [State.fetch, State.placeOpcode, if_pos hp, key s.pc hp _ rfl]
  · have h2 : (0x200 : Word).toNat + 1 < Config.memSize := by decide
    simp only [State.fetch, State.placeOpcode, if_neg hp, if_pos h2, key 0x200 h2 _ rfl]

end Sys2Proof.Machine
end

