-- ==== Sys2Proof/Laws/Display.lean ====
section
/-! SUPPORT. The laws of the display and of the sprite-draw engine: reading a cell after writing one, and what drawing
one row and a whole sprite leaves in each cell (45_display.md R102, R103). -/

namespace Sys2Proof.Machine

/-- A cell of the display reads as written, and every other cell as before. -/
theorem Display.cell_put (d : Display) {idx : Nat} (q : Nat) (p : Pixel) (h : idx < 2048) :
    (d.put idx p).cell q = if q = idx then p else d.cell q := by
  have hr : idx / 64 < 32 := by omega
  simp only [Display.put, hr, dif_pos]
  by_cases hq : q / 64 < 32
  · simp only [Display.cell, hq, dif_pos]
    by_cases hrow : idx / 64 = q / 64
    · by_cases hcol : idx % 64 = q % 64
      · have : q = idx := by omega
        subst this; simp
      · have : q ≠ idx := fun e => hcol (by rw [e])
        simp only [this, if_false, hrow, Vector.getElem_set_self]
        rw [Vector.getElem_set_ne _ _ hcol]
    · have : q ≠ idx := fun e => hrow (by rw [e])
      simp only [this, if_false]
      rw [Vector.getElem_set_ne _ _ hrow]
  · have : q ≠ idx := fun e => hq (by rw [e]; exact hr)
    simp [Display.cell, hq, this]

/-- Every cell of the blank display is unset (R101). -/
@[simp] theorem Display.cell_blank (idx : Nat) : blankDisplay.cell idx = .unset := by
  unfold Display.cell blankDisplay
  split <;> simp

/-- lit of a drawn bit is the bit. -/
@[simp] theorem Pixel.lit_ofBit (b : Bool) : (Pixel.ofBit b).lit = b := by
  cases b <;> rfl

/-- What one pixel of drawing leaves in each cell. -/
theorem drawPixel_cell (idx q : Nat) (bit : Bool) (cv : Canvas) (h : idx < 2048) :
    (drawPixel idx bit cv).disp.cell q =
      if q = idx then .ofBit (xor (cv.disp.cell idx).lit bit) else cv.disp.cell q :=
  Display.cell_put _ _ _ h

/-- One pixel sets the collision where a lit cell meets a 1 bit, and never clears it. -/
theorem drawPixel_collided (idx : Nat) (bit : Bool) (cv : Canvas) :
    (drawPixel idx bit cv).collided = (cv.collided || ((cv.disp.cell idx).lit && bit)) := by
  unfold drawPixel
  cases (cv.disp.cell idx).lit <;> cases bit <;> simp

/-- A row of a sprite, drawn from its column k on: each cell of the row's visited columns gets its old bit XOR its
sprite bit, and no other cell changes. -/
theorem drawColumns_cell (row : Byte) (x y k : Nat) (hy : y < 32) (n : Nat) (cv : Canvas) (q : Nat) :
    (drawColumns row x y (List.range' k n) cv).disp.cell q =
      if q / 64 = y ∧ x + k ≤ q % 64 ∧ q % 64 < min (x + k + n) 64 then
        .ofBit (xor (cv.disp.cell q).lit (spriteBit row (q % 64 - x)))
      else cv.disp.cell q := by
  induction n generalizing k cv with
  | zero =>
    have : ¬(q / 64 = y ∧ x + k ≤ q % 64 ∧ q % 64 < min (x + k + 0) 64) := by omega
    rw [if_neg this]; rfl
  | succ n ih =>
    simp only [List.range'_succ, drawColumns, Config.screenWidth]
    split
    · have : ¬(q / 64 = y ∧ x + k ≤ q % 64 ∧ q % 64 < min (x + k + (n + 1)) 64) := by omega
      rw [if_neg this]
    · rename_i hx
      rw [ih, drawPixel_cell _ _ _ _ (by omega)]
      by_cases hq : q = y * 64 + (x + k)
      · have h1 : ¬(q / 64 = y ∧ x + (k + 1) ≤ q % 64 ∧ q % 64 < min (x + (k + 1) + n) 64) := by omega
        have h2 : q / 64 = y ∧ x + k ≤ q % 64 ∧ q % 64 < min (x + k + (n + 1)) 64 := by omega
        have h3 : q % 64 - x = k := by omega
        rw [if_neg h1, if_pos hq, if_pos h2, h3, hq]
      · rw [if_neg hq]
        have : (q / 64 = y ∧ x + (k + 1) ≤ q % 64 ∧ q % 64 < min (x + (k + 1) + n) 64) ↔
            (q / 64 = y ∧ x + k ≤ q % 64 ∧ q % 64 < min (x + k + (n + 1)) 64) := by omega
        simp only [this]

/-- A row of a sprite sets the collision exactly where some visited cell of the row was lit and met a 1 bit. -/
theorem drawColumns_collided (row : Byte) (x y k : Nat) (hy : y < 32) (n : Nat) (cv : Canvas) :
    (drawColumns row x y (List.range' k n) cv).collided = true ↔
      cv.collided = true ∨ ∃ q, (q / 64 = y ∧ x + k ≤ q % 64 ∧ q % 64 < min (x + k + n) 64) ∧
        (cv.disp.cell q).lit = true ∧ spriteBit row (q % 64 - x) = true := by
  induction n generalizing k cv with
  | zero =>
    constructor
    · intro h; exact .inl h
    · rintro (h | ⟨q, hq, -⟩)
      · exact h
      · omega
  | succ n ih =>
    simp only [List.range'_succ, drawColumns, Config.screenWidth]
    split
    · constructor
      · intro h; exact .inl h
      · rintro (h | ⟨q, hq, -⟩)
        · exact h
        · omega
    · rename_i hx
      rw [ih, drawPixel_collided]
      simp only [Bool.or_eq_true, Bool.and_eq_true]
      constructor
      · rintro ((h | ⟨hl, hb⟩) | ⟨q, hq, hl, hb⟩)
        · exact .inl h
        · refine .inr ⟨y * 64 + (x + k), by omega, hl, ?_⟩
          have : (y * 64 + (x + k)) % 64 - x = k := by omega
          rwa [this]
        · rw [drawPixel_cell _ _ _ _ (by omega), if_neg (by omega)] at hl
          exact .inr ⟨q, by omega, hl, hb⟩
      · rintro (h | ⟨q, hq, hl, hb⟩)
        · exact .inl (.inl h)
        · by_cases he : q = y * 64 + (x + k)
          · have : q % 64 - x = k := by omega
            rw [this] at hb
            rw [he] at hl
            exact .inl (.inr ⟨hl, hb⟩)
          · refine .inr ⟨q, by omega, ?_, hb⟩
            rw [drawPixel_cell _ _ _ _ (by omega), if_neg he]
            exact hl

/-- A sprite, drawn from its row k on: each visited cell gets its old bit XOR its sprite bit, and no other cell
changes (R103). -/
theorem drawRows_cell (mem : Memory) (base x y k n : Nat) (cv : Canvas) (q : Nat) :
    (drawRows mem base x y (List.range' k n) cv).disp.cell q =
      if (y + k ≤ q / 64 ∧ q / 64 < min (y + k + n) 32) ∧ (x ≤ q % 64 ∧ q % 64 < min (x + 8) 64) then
        .ofBit (xor (cv.disp.cell q).lit (spriteBit (mem.read (base + (q / 64 - y))) (q % 64 - x)))
      else cv.disp.cell q := by
  induction n generalizing k cv with
  | zero =>
    have : ¬((y + k ≤ q / 64 ∧ q / 64 < min (y + k + 0) 32) ∧ (x ≤ q % 64 ∧ q % 64 < min (x + 8) 64)) := by omega
    rw [if_neg this]; rfl
  | succ n ih =>
    simp only [List.range'_succ, drawRows, Config.screenHeight]
    split
    · have : ¬((y + k ≤ q / 64 ∧ q / 64 < min (y + k + (n + 1)) 32) ∧ (x ≤ q % 64 ∧ q % 64 < min (x + 8) 64)) := by
        omega
      rw [if_neg this]
    · rename_i hy
      rw [ih, List.range_eq_range', drawColumns_cell _ _ _ _ (by omega)]
      by_cases hrow : q / 64 = y + k
      · have h1 : ¬((y + (k + 1) ≤ q / 64 ∧ q / 64 < min (y + (k + 1) + n) 32) ∧
            (x ≤ q % 64 ∧ q % 64 < min (x + 8) 64)) := by omega
        have h2 : q / 64 - y = k := by omega
        rw [if_neg h1, h2]
        have : (q / 64 = y + k ∧ x + 0 ≤ q % 64 ∧ q % 64 < min (x + 0 + 8) 64) ↔
            ((y + k ≤ q / 64 ∧ q / 64 < min (y + k + (n + 1)) 32) ∧ (x ≤ q % 64 ∧ q % 64 < min (x + 8) 64)) := by
          omega
        simp only [this]
      · have h1 : ¬(q / 64 = y + k ∧ x + 0 ≤ q % 64 ∧ q % 64 < min (x + 0 + 8) 64) := fun h => hrow h.1
        rw [if_neg h1]
        have : ((y + (k + 1) ≤ q / 64 ∧ q / 64 < min (y + (k + 1) + n) 32) ∧
              (x ≤ q % 64 ∧ q % 64 < min (x + 8) 64)) ↔
            ((y + k ≤ q / 64 ∧ q / 64 < min (y + k + (n + 1)) 32) ∧ (x ≤ q % 64 ∧ q % 64 < min (x + 8) 64)) := by
          omega
        simp only [this]

/-- A sprite sets the collision exactly where some visited cell was lit and met a 1 bit (R104). -/
theorem drawRows_collided (mem : Memory) (base x y k n : Nat) (cv : Canvas) :
    (drawRows mem base x y (List.range' k n) cv).collided = true ↔
      cv.collided = true ∨
        ∃ q, ((y + k ≤ q / 64 ∧ q / 64 < min (y + k + n) 32) ∧ (x ≤ q % 64 ∧ q % 64 < min (x + 8) 64)) ∧
          (cv.disp.cell q).lit = true ∧ spriteBit (mem.read (base + (q / 64 - y))) (q % 64 - x) = true := by
  induction n generalizing k cv with
  | zero =>
    constructor
    · intro h; exact .inl h
    · rintro (h | ⟨q, hq, -⟩)
      · exact h
      · omega
  | succ n ih =>
    simp only [List.range'_succ, drawRows, Config.screenHeight]
    split
    · constructor
      · intro h; exact .inl h
      · rintro (h | ⟨q, hq, -⟩)
        · exact h
        · omega
    · rename_i hy
      rw [ih, List.range_eq_range', drawColumns_collided _ _ _ _ (by omega)]
      constructor
      · rintro ((h | ⟨q, hq, hl, hb⟩) | ⟨q, hq, hl, hb⟩)
        · exact .inl h
        · refine .inr ⟨q, by omega, hl, ?_⟩
          have : q / 64 - y = k := by omega
          rwa [this]
        · rw [drawColumns_cell _ _ _ _ (by omega), if_neg (by omega)] at hl
          exact .inr ⟨q, by omega, hl, hb⟩
      · rintro (h | ⟨q, hq, hl, hb⟩)
        · exact .inl (.inl h)
        · by_cases he : q / 64 = y + k
          · refine .inl (.inr ⟨q, by omega, hl, ?_⟩)
            have : q / 64 - y = k := by omega
            rwa [this] at hb
          · refine .inr ⟨q, by omega, ?_, hb⟩
            rw [drawColumns_cell _ _ _ _ (by omega), if_neg (fun h => he h.1)]
            exact hl

end Sys2Proof.Machine
end

