-- ==== Sys2Proof/Laws/Flags.lean ====
section
/-! SUPPORT. What the flag values are as numbers, and what a flag-writing ALU instruction leaves in the registers
(44_alu.md R89). -/

namespace Sys2Proof.Machine

/-- A flag as a number. -/
@[simp] theorem flag_toNat (c : Bool) : (flag c).toNat = if c then 1 else 0 := by
  cases c <;> rfl

/-- ADD's carry as a number (R94). -/
theorem addFlag_toNat (a b : Byte) : (addFlag a b).toNat = if 255 < a.toNat + b.toNat then 1 else 0 := by
  simp [addFlag]

/-- The strict comparison as a number (R95, R97). -/
theorem greaterFlag_toNat (a b : Byte) : (greaterFlag a b).toNat = if b.toNat < a.toNat then 1 else 0 := by
  simp [greaterFlag]

/-- SHR's flag as a number: bit 0 (R96). -/
theorem shrFlag_toNat (a : Byte) : (shrFlag a).toNat = a.toNat % 2 := by
  simp [shrFlag]

/-- SHL's flag as a number: bit 4 (R98). -/
theorem shlFlag_toNat (a : Byte) : (shlFlag a).toNat = if a.toNat.testBit 4 then 1 else 0 := by
  revert a; decide

/-- A register that is neither VF nor the destination is unchanged. -/
theorem State.flagThenResult_getV_other (s : State) {x r : Nibble} (fl : Byte) (g : State → Byte) (hx : r ≠ x)
    (hf : r ≠ 0xF#4) : (s.flagThenResult x fl g).getV r = s.getV r := by
  unfold State.flagThenResult
  split
  · simp [State.getV_setV, hx, hf]
  · split <;> simp [State.getV_setV, hx, hf]

/-- The destination, where it is not VF, holds the result of the state in which VF has been written. -/
theorem State.flagThenResult_getV_dest (s : State) {x : Nibble} (fl : Byte) (g : State → Byte) (hx : x ≠ 0xF#4) :
    (s.flagThenResult x fl g).getV x = g (s.setV 0xF#4 fl) := by
  unfold State.flagThenResult
  split
  · simp
  · simp [hx]

/-- VF, where it is not the destination, holds the flag. -/
theorem State.flagThenResult_getV_flag (s : State) {x : Nibble} (fl : Byte) (g : State → Byte) (hx : x ≠ 0xF#4) :
    (s.flagThenResult x fl g).getV 0xF#4 = fl := by
  unfold State.flagThenResult
  split
  · simp [State.getV_setV, Ne.symm hx]
  · simp [State.getV_setV, hx, Ne.symm hx]

/-- VF as the destination holds the result, or the flag where ALU_VF_DEST = flag. -/
theorem State.flagThenResult_getV_vf (s : State) (fl : Byte) (g : State → Byte) :
    (s.flagThenResult 0xF#4 fl g).getV 0xF#4 =
      if s.params.aluVfDest = .result then g (s.setV 0xF#4 fl) else fl := by
  unfold State.flagThenResult
  split
  · rename_i h; simp [h]
  · rename_i h; simp [h]

end Sys2Proof.Machine
end

