-- ==== Sys2Proof/Laws/PerInstr.lean ====
section
/-! SUPPORT. Statements made for every instruction, one lemma per constructor. The family EncodesToRow: the encoded
word has, under the row's mask, the row's match (30_encoding.md R50). -/

namespace Sys2Proof.Laws.EncodesToRow

/-- The mask and match of an instruction's row in the opcode map (R50). -/
def row : Instr → Opcode × Opcode
  | .cls _ => (0xFFFF, 0x00E0)
  | .ret _ => (0xFFFF, 0x00EE)
  | .jp _ => (0xF000, 0x1000)
  | .call _ => (0xF000, 0x2000)
  | .seVxByte _ => (0xF000, 0x3000)
  | .sneVxByte _ => (0xF000, 0x4000)
  | .seVxVy _ => (0xF000, 0x5000)
  | .ldVxByte _ => (0xF000, 0x6000)
  | .addVxByte _ => (0xF000, 0x7000)
  | .ldVxVy _ => (0xF00F, 0x8000)
  | .orVxVy _ => (0xF00F, 0x8001)
  | .andVxVy _ => (0xF00F, 0x8002)
  | .xorVxVy _ => (0xF00F, 0x8003)
  | .addVxVy _ => (0xF00F, 0x8004)
  | .subVxVy _ => (0xF00F, 0x8005)
  | .shrVxVy _ => (0xF00F, 0x8006)
  | .subnVxVy _ => (0xF00F, 0x8007)
  | .shlVxVy _ => (0xF00F, 0x8008)
  | .sneVxVy _ => (0xF000, 0x9000)
  | .ldI _ => (0xF000, 0xA000)
  | .jpV0 _ => (0xF000, 0xB000)
  | .rndVxByte _ => (0xF000, 0xC000)
  | .drwVxVy _ => (0xF000, 0xD000)
  | .ldVxDt _ => (0xF0FF, 0xF007)
  | .ldDtVx _ => (0xF0FF, 0xF015)
  | .ldStVx _ => (0xF0FF, 0xF018)
  | .addIVx _ => (0xF0FF, 0xF01E)

/-- The encoded word selects the instruction's row. -/
def Statement (i : Instr) : Prop :=
  encode i &&& (row i).1 = (row i).2

/-- The bits of a word of format `F_NNN` under the mask of the top nibble. -/
theorem nnn_masked (op : Nibble) (f : Fields) : encodeNnn op f &&& 0xF000 = op ++ 0x000#12 := by
  change (op ++ f.nnn : Opcode) &&& (BitVec.allOnes 4 ++ 0#12 : Opcode) = _
  simp only [BitVec.and_append, BitVec.and_allOnes, BitVec.and_zero]

/-- The bits of a word of format `F_XKK` under the mask of the top nibble. -/
theorem xkk_masked (op : Nibble) (f : Fields) : encodeXkk op f &&& 0xF000 = op ++ 0x0#4 ++ 0x00#8 := by
  change (op ++ f.x ++ f.kk : Opcode) &&& (BitVec.allOnes 4 ++ 0#4 ++ 0#8 : Opcode) = _
  simp only [BitVec.and_append, BitVec.and_allOnes, BitVec.and_zero]

/-- The bits of a word of format `F_XY` or `F_XYN` under the mask of the top nibble. -/
theorem xyn_masked (op : Nibble) (f : Fields) (low : Nibble) :
    encodeXyn op f low &&& 0xF000 = op ++ 0x0#4 ++ 0x0#4 ++ 0x0#4 := by
  change (op ++ f.x ++ f.y ++ low : Opcode) &&& (BitVec.allOnes 4 ++ 0#4 ++ 0#4 ++ 0#4 : Opcode) = _
  simp only [BitVec.and_append, BitVec.and_allOnes, BitVec.and_zero]

/-- The bits of a word of format `F_XY` under the mask of the top and the low nibble. -/
theorem xy_masked (op : Nibble) (f : Fields) (low : Nibble) :
    encodeXyn op f low &&& 0xF00F = op ++ 0x0#4 ++ 0x0#4 ++ low := by
  change (op ++ f.x ++ f.y ++ low : Opcode) &&& (BitVec.allOnes 4 ++ 0#4 ++ 0#4 ++ BitVec.allOnes 4 : Opcode) = _
  simp only [BitVec.and_append, BitVec.and_allOnes, BitVec.and_zero]

/-- The bits of a word of format `F_X` under the mask of the top nibble and the low byte. -/
theorem x_masked (f : Fields) (low : Byte) : encodeX f low &&& 0xF0FF = 0xF#4 ++ 0x0#4 ++ low := by
  change (0xF#4 ++ f.x ++ low : Opcode) &&& (BitVec.allOnes 4 ++ 0#4 ++ BitVec.allOnes 8 : Opcode) = _
  simp only [BitVec.and_append, BitVec.and_allOnes, BitVec.and_zero]

theorem cls (f : Fields) : Statement (.cls f) := by
  simp [Statement, row, encode, encodeFix]
theorem ret (f : Fields) : Statement (.ret f) := by
  simp [Statement, row, encode, encodeFix]
theorem jp (f : Fields) : Statement (.jp f) := nnn_masked 0x1 f
theorem call (f : Fields) : Statement (.call f) := nnn_masked 0x2 f
theorem seVxByte (f : Fields) : Statement (.seVxByte f) := xkk_masked 0x3 f
theorem sneVxByte (f : Fields) : Statement (.sneVxByte f) := xkk_masked 0x4 f
theorem seVxVy (f : Fields) : Statement (.seVxVy f) := xyn_masked 0x5 f f.n
theorem ldVxByte (f : Fields) : Statement (.ldVxByte f) := xkk_masked 0x6 f
theorem addVxByte (f : Fields) : Statement (.addVxByte f) := xkk_masked 0x7 f
theorem ldVxVy (f : Fields) : Statement (.ldVxVy f) := xy_masked 0x8 f 0x0
theorem orVxVy (f : Fields) : Statement (.orVxVy f) := xy_masked 0x8 f 0x1
theorem andVxVy (f : Fields) : Statement (.andVxVy f) := xy_masked 0x8 f 0x2
theorem xorVxVy (f : Fields) : Statement (.xorVxVy f) := xy_masked 0x8 f 0x3
theorem addVxVy (f : Fields) : Statement (.addVxVy f) := xy_masked 0x8 f 0x4
theorem subVxVy (f : Fields) : Statement (.subVxVy f) := xy_masked 0x8 f 0x5
theorem shrVxVy (f : Fields) : Statement (.shrVxVy f) := xy_masked 0x8 f 0x6
theorem subnVxVy (f : Fields) : Statement (.subnVxVy f) := xy_masked 0x8 f 0x7
theorem shlVxVy (f : Fields) : Statement (.shlVxVy f) := xy_masked 0x8 f 0x8
theorem sneVxVy (f : Fields) : Statement (.sneVxVy f) := xyn_masked 0x9 f f.n
theorem ldI (f : Fields) : Statement (.ldI f) := nnn_masked 0xA f
theorem jpV0 (f : Fields) : Statement (.jpV0 f) := nnn_masked 0xB f
theorem rndVxByte (f : Fields) : Statement (.rndVxByte f) := xkk_masked 0xC f
theorem drwVxVy (f : Fields) : Statement (.drwVxVy f) := xyn_masked 0xD f f.n
theorem ldVxDt (f : Fields) : Statement (.ldVxDt f) := x_masked f 0x07
theorem ldDtVx (f : Fields) : Statement (.ldDtVx f) := x_masked f 0x15
theorem ldStVx (f : Fields) : Statement (.ldStVx f) := x_masked f 0x18
theorem addIVx (f : Fields) : Statement (.addIVx f) := x_masked f 0x1E

end Sys2Proof.Laws.EncodesToRow
end

