-- ==== Sys2Proof/Laws/Run.lean ====
section
/-! SUPPORT. Runs of the core and of the whole system, one step at a time, and the induction along a run. -/

namespace Sys2Proof.Machine

/-- A run of no steps. -/
theorem core_run_zero (s : State) : Sys2Proof.core.run 0 s = .next s := rfl

/-- A run of one step more. -/
theorem core_run_succ (k : Nat) (s : State) :
    Sys2Proof.core.run (k + 1) s = match step s with
      | .next t => Sys2Proof.core.run k t
      | .fault r => .fault r
      | .refused r => .refused r := by
  refine (Host.Core.run.eq_2 Sys2Proof.core s k).trans ?_
  have hc : Sys2Proof.core.step s = step s := rfl
  rw [hc]
  rcases step s with u | r | r <;> rfl

/-- A run that answers a next state after one step more went through a step that did. -/
theorem core_run_succ_next {k : Nat} {s t : State} (h : Sys2Proof.core.run (k + 1) s = .next t) :
    ∃ u, step s = .next u ∧ Sys2Proof.core.run k u = .next t := by
  rw [core_run_succ] at h
  rcases hs : step s with u | r | r <;> rw [hs] at h
  · exact ⟨u, rfl, h⟩
  · cases h
  · cases h

/-- What every step keeps, every run keeps. -/
theorem core_run_induction {P : State → Prop} (hstep : ∀ s t, P s → step s = .next t → P t) {k : Nat} {s t : State}
    (hs : P s) (h : Sys2Proof.core.run k s = .next t) : P t := by
  induction k generalizing s with
  | zero => cases h; exact hs
  | succ k ih =>
    obtain ⟨u, h1, h2⟩ := core_run_succ_next h
    exact ih (hstep s u hs h1) h2

/-- A run with host moves that goes on went through a move that answered a next state. -/
theorem runMoves_cons_next {m : Move} {ms : List Move} {s t : State} (h : runMoves (m :: ms) s = .next t) :
    ∃ u, move m s = .next u ∧ runMoves ms u = .next t := by
  unfold runMoves at h
  rcases hm : move m s with u | r | r <;> rw [hm] at h
  · exact ⟨u, rfl, h⟩
  · cases h
  · cases h

/-- What every move keeps, every run of the whole system keeps. -/
theorem runMoves_induction {P : State → Prop} (hmove : ∀ m s t, P s → move m s = .next t → P t) {ms : List Move}
    {s t : State} (hs : P s) (h : runMoves ms s = .next t) : P t := by
  induction ms generalizing s with
  | nil => cases h; exact hs
  | cons m ms ih =>
    obtain ⟨u, h1, h2⟩ := runMoves_cons_next h
    exact ih (hmove m s u hs h1) h2

/-- The host's timer write, where it has one, changes DT and ST alone (60_exceptions.md R118). -/
theorem hostWriteTimers_cases {d u : Byte} {s t : State} (h : hostWriteTimers d u s = .next t) :
    s.params.hostTimerWrites = true ∧ t = (s.setDt d).setSt u := by
  unfold hostWriteTimers at h
  split at h
  · rename_i hp; cases h; exact ⟨hp, rfl⟩
  · cases h

end Sys2Proof.Machine
end

