-- ==== Sys2Proof/Tests/Slice0.lean ====
section
/-! SUPPORT. The model's own tests: the smoke test of the well-formedness check, words written out bit by bit from
the spec's encodings, one-step tests whose expected values are those of 95_test_vectors.md (its vector is named in
each docstring), and a witness for the hypotheses of every obligation that has some. -/

open Sys2Proof Sys2Proof.Machine

namespace Sys2Proof.Tests

set_option Elab.async false

/-! ### Helpers -/

/-- The creation state with one opcode at 0x200. -/
def ready (op : Opcode) : State :=
  State.reset.placeOpcode op

/-- A state with registers set. -/
def withV (s : State) : List (Nibble × Byte) → State
  | [] => s
  | (r, b) :: rest => withV (s.setV r b) rest

/-- A state with ALU_VF_DEST = flag. -/
def keepFlag (s : State) : State :=
  { s with params := { s.params with aluVfDest := .flag } }

/-- A state with JP_V0_FALLTHROUGH = true. -/
def fallThrough (s : State) : State :=
  { s with params := { s.params with jpV0Fallthrough := true } }

/-- A state with bytes stored at an address. -/
def withBytes (s : State) (a : Nat) (bs : List Nat) : State :=
  { s with mem := s.mem.install a bs }

/-- A state with a display cell set. -/
def withCell (s : State) (idx : Nat) (p : Pixel) : State :=
  { s with disp := s.disp.put idx p }

/-- What one step leaves, read through a function; none where it does not answer a next state. -/
def after {α : Type} (s : State) (read : State → α) : Option α :=
  match step s with
  | .next t => some (read t)
  | .fault _ => none
  | .refused _ => none

/-- V[x], VF and pc. -/
def vxVfPc (x : Nibble) (t : State) : Byte × Byte × Word :=
  (t.getV x, t.getV 0xF#4, t.pc)

/-- The state one step leads to, for a step that answers one. -/
def nextOf (s : State) : State :=
  match step s with
  | .next t => t
  | .fault _ => s
  | .refused _ => s

/-! ### The well-formedness check refuses each ill-formed term (30_encoding.md R48, R50) -/

/-- nnn is not x*256 + kk. -/
theorem test_wf_nnn_overlap : (Instr.jp ⟨0xC, 0xABC, 0xB, 0xB, 0xBC⟩).wellFormed = false := by decide

/-- kk is not y*16 + n. -/
theorem test_wf_kk_overlap : (Instr.ldVxByte ⟨0x1, 0x123, 0x1, 0x2, 0x23⟩).wellFormed = false := by decide

/-- CLS and RET fix nnn. -/
theorem test_wf_fixed_nnn : (Instr.cls (fieldsOf 0x00EE)).wellFormed = false ∧
    (Instr.ret (fieldsOf 0x00E0)).wellFormed = false := by decide

/-- Each kind of the 0x8 family fixes n. -/
theorem test_wf_fixed_n :
    [Instr.ldVxVy, .orVxVy, .andVxVy, .xorVxVy, .addVxVy, .subVxVy, .shrVxVy, .subnVxVy, .shlVxVy].all
      (fun make => !(make (fieldsOf 0x8ABE)).wellFormed) = true := by decide

/-- Each kind of the 0xF family fixes kk. -/
theorem test_wf_fixed_kk :
    [Instr.ldVxDt, .ldDtVx, .ldStVx, .addIVx].all (fun make => !(make (fieldsOf 0xF00A)).wellFormed) = true := by
  decide

/-- Records that some opcode has pass, 5xy? and 9xy? with any n among them (R54). -/
theorem test_wf_accepts : (Instr.jp (fieldsOf 0x1ABC)).wellFormed = true ∧
    (Instr.seVxVy (fieldsOf 0x5AB1)).wellFormed = true ∧ (Instr.sneVxVy (fieldsOf 0x9AB7)).wellFormed = true ∧
    (Instr.addIVx (fieldsOf 0xFF1E)).wellFormed = true := by decide

/-! ### Words written out from the spec's encodings (R46, R50; vectors DV1 to DV32) -/

/-- F_FIX: 0000 0000 1110 0000 and 0000 0000 1110 1110. -/
theorem test_decode_fixed :
    decodeOpcode 0b0000000011100000 = .ok (.cls ⟨0x0, 0x0E0, 0x0, 0xE, 0xE0⟩) ∧
    decodeOpcode 0b0000000011101110 = .ok (.ret ⟨0xE, 0x0EE, 0x0, 0xE, 0xEE⟩) := by decide

/-- F_NNN: the top nibble, then twelve address bits 1010 1011 1100. -/
theorem test_decode_nnn :
    decodeOpcode 0b0001101010111100 = .ok (.jp ⟨0xC, 0xABC, 0xA, 0xB, 0xBC⟩) ∧
    decodeOpcode 0b0010101010111100 = .ok (.call ⟨0xC, 0xABC, 0xA, 0xB, 0xBC⟩) ∧
    decodeOpcode 0b1010101010111100 = .ok (.ldI ⟨0xC, 0xABC, 0xA, 0xB, 0xBC⟩) ∧
    decodeOpcode 0b1011101010111100 = .ok (.jpV0 ⟨0xC, 0xABC, 0xA, 0xB, 0xBC⟩) := by decide

/-- F_XKK: the top nibble, x = 1010, kk = 0100 0010. -/
theorem test_decode_xkk :
    decodeOpcode 0b0011101001000010 = .ok (.seVxByte ⟨0x2, 0xA42, 0xA, 0x4, 0x42⟩) ∧
    decodeOpcode 0b0100101001000010 = .ok (.sneVxByte ⟨0x2, 0xA42, 0xA, 0x4, 0x42⟩) ∧
    decodeOpcode 0b0110101001000010 = .ok (.ldVxByte ⟨0x2, 0xA42, 0xA, 0x4, 0x42⟩) ∧
    decodeOpcode 0b0111101001000010 = .ok (.addVxByte ⟨0x2, 0xA42, 0xA, 0x4, 0x42⟩) ∧
    decodeOpcode 0b1100101001000010 = .ok (.rndVxByte ⟨0x2, 0xA42, 0xA, 0x4, 0x42⟩) := by decide

/-- F_XY of the 0x8 family: 1000, x = 1010, y = 1011, the sub-operation. -/
theorem test_decode_xy :
    decodeOpcode 0b1000101010110000 = .ok (.ldVxVy ⟨0x0, 0xAB0, 0xA, 0xB, 0xB0⟩) ∧
    decodeOpcode 0b1000101010110001 = .ok (.orVxVy ⟨0x1, 0xAB1, 0xA, 0xB, 0xB1⟩) ∧
    decodeOpcode 0b1000101010110010 = .ok (.andVxVy ⟨0x2, 0xAB2, 0xA, 0xB, 0xB2⟩) ∧
    decodeOpcode 0b1000101010110011 = .ok (.xorVxVy ⟨0x3, 0xAB3, 0xA, 0xB, 0xB3⟩) ∧
    decodeOpcode 0b1000101010110100 = .ok (.addVxVy ⟨0x4, 0xAB4, 0xA, 0xB, 0xB4⟩) ∧
    decodeOpcode 0b1000101010110101 = .ok (.subVxVy ⟨0x5, 0xAB5, 0xA, 0xB, 0xB5⟩) ∧
    decodeOpcode 0b1000101010110110 = .ok (.shrVxVy ⟨0x6, 0xAB6, 0xA, 0xB, 0xB6⟩) ∧
    decodeOpcode 0b1000101010110111 = .ok (.subnVxVy ⟨0x7, 0xAB7, 0xA, 0xB, 0xB7⟩) ∧
    decodeOpcode 0b1000101010111000 = .ok (.shlVxVy ⟨0x8, 0xAB8, 0xA, 0xB, 0xB8⟩) := by decide

/-- 5xy? and 9xy? with bits 3:0 that are ignored, and F_XYN with the height there. -/
theorem test_decode_xyn :
    decodeOpcode 0b0101101010110001 = .ok (.seVxVy ⟨0x1, 0xAB1, 0xA, 0xB, 0xB1⟩) ∧
    decodeOpcode 0b1001101010110111 = .ok (.sneVxVy ⟨0x7, 0xAB7, 0xA, 0xB, 0xB7⟩) ∧
    decodeOpcode 0b1101000000010101 = .ok (.drwVxVy ⟨0x5, 0x015, 0x0, 0x1, 0x15⟩) := by decide

/-- F_X: 1111, x, then the fixed low byte. -/
theorem test_decode_x :
    decodeOpcode 0b1111000100000111 = .ok (.ldVxDt ⟨0x7, 0x107, 0x1, 0x0, 0x07⟩) ∧
    decodeOpcode 0b1111001000010101 = .ok (.ldDtVx ⟨0x5, 0x215, 0x2, 0x1, 0x15⟩) ∧
    decodeOpcode 0b1111001100011000 = .ok (.ldStVx ⟨0x8, 0x318, 0x3, 0x1, 0x18⟩) ∧
    decodeOpcode 0b1111111100011110 = .ok (.addIVx ⟨0xE, 0xF1E, 0xF, 0x1, 0x1E⟩) := by decide

/-- The top nibble decides: 0x10E0 is not CLS (DV7). -/
theorem test_decode_top_nibble : decodeOpcode 0x10E0 = .ok (.jp ⟨0x0, 0x0E0, 0x0, 0xE, 0xE0⟩) := by decide

/-- The opcodes of other CHIP-8 references, and the ends of the undecodable ranges, raise DecodeError with the raw
opcode (DV1, DV3, DV5, DV6, DV21, DV22, DV27, DV32; R58). -/
theorem test_decode_errors :
    [0x0000, 0x00DF, 0x00E1, 0x00EF, 0x0123, 0x0FFF, 0x8009, 0x8AB9, 0x8ABA, 0x8ABE, 0x8FFF, 0xE000, 0xE09E, 0xE0A1,
      0xEFFF, 0xF000, 0xF00A, 0xF029, 0xF033, 0xF055, 0xF065, 0xF01F, 0xFFFF].all
      (fun op => decide (decodeOpcode op = .error (.unrecognised op))) = true := by decide

/-- Bytes are taken high first, the rest is left, and one byte is too short. -/
theorem test_decode_bytes :
    decodeBytes [0x1A, 0xBC, 0x77] = .ok (.jp ⟨0xC, 0xABC, 0xA, 0xB, 0xBC⟩, [0x77]) ∧
    decodeBytes [0x1A] = .error (.tooShort 1) := by decide

/-- The opcode table's words reach the decoder. -/
theorem test_decode_table_word :
    decodeTableWord 16 0x8AB4 = some (.addVxVy ⟨0x4, 0xAB4, 0xA, 0xB, 0xB4⟩) ∧ decodeTableWord 16 0x8ABE = none := by
  decide

/-- Encoding is by the table's words (R50). -/
theorem test_encode :
    encode (.drwVxVy ⟨0x5, 0x015, 0x0, 0x1, 0x15⟩) = 0xD015 ∧ encode (.ldStVx ⟨0x8, 0x318, 0x3, 0x1, 0x18⟩) = 0xF318 ∧
    encode (.seVxVy ⟨0x1, 0xAB1, 0xA, 0xB, 0xB1⟩) = 0x5AB1 := by decide

/-- The text of a line (R60): the examples of the spec's own rules. -/
theorem test_assembly_text :
    (disassemble (.ldVxByte (fieldsOf 0x6AC8))).text = "LD VA, 0xC8" ∧
    (disassemble (.jpV0 (fieldsOf 0xB200))).text = "JP V0, 0x200" ∧
    (disassemble (.drwVxVy (fieldsOf 0xD011))).text = "DRW V0, V1, 1" ∧
    (disassemble (.seVxVy (fieldsOf 0x512F))).text = "SE V1, V2 ; n=0xF" := by decide

/-- A line of no kind has no opcode. -/
theorem test_assemble_nothing : assemble { mnemonic := .DRW, operands := [] } = none := by decide

/-! ### Control transfer (W5, C1 to C14) -/

/-- W5: the CALL pushes its own address and lands at target + 2. -/
theorem test_call_pushes :
    after (ready 0x2300) (fun t => (t.slot 1, t.sp, t.pc)) = some (0x200, 1, 0x302) := by decide +kernel

/-- C5. -/
theorem test_call_overflow :
    step { ready 0x2300 with sp := 15 } =
      .next { ready 0x2300 with sp := 15, status := .faulted (.stackOverflow 0x200 15) } := rfl

/-- C7: the popped slot keeps its value. -/
theorem test_ret_returns :
    after (({ ready 0x00EE with sp := 3 }).setSlot 3 0x456) (fun t => (t.pc, t.sp, t.slot 3)) =
      some (0x458, 2, 0x456) := by decide +kernel

/-- C6. -/
theorem test_ret_underflow :
    step (ready 0x00EE) = .next { ready 0x00EE with status := .faulted (.stackUnderflow 0x200) } := rfl

/-- C1. -/
theorem test_jp : after (ready 0x1ABC) (·.pc) = some 0xABE := by decide +kernel

/-- C4: beyond the last fetchable address. -/
theorem test_jp_beyond : after (ready 0x1FFF) (·.pc) = some 0x1001 := by decide +kernel

/-- C8 and C9: the largest value pc can hold. -/
theorem test_jp_v0 :
    after (withV (ready 0xB200) [(0x0, 0x04)]) (·.pc) = some 0x206 ∧
    after (withV (ready 0xBFFF) [(0x0, 0xFF)]) (·.pc) = some 0x1100 := by decide +kernel

/-- C11: the jump reads V0 before the random byte, masked by kk = 0x00, is written. -/
theorem test_jp_v0_fallthrough :
    (after (fallThrough (withV (ready 0xB000) [(0x0, 0x10)])) fun t => (t.pc, t.draws)) = some (0x012, 1) := by
  decide +kernel

/-- C13: the fetch out of range writes nothing else. -/
theorem test_fetch_out_of_range :
    step { State.reset with pc := 0xFFF } =
      .next { State.reset with pc := 0xFFF, status := .faulted (.fetchOutOfRange 0xFFF) } := rfl

/-- C14. -/
theorem test_decode_error_step :
    step (ready 0x800E) = .next { ready 0x800E with status := .faulted (.decodeError 0x800E) } := rfl

/-- C12: an odd pc fetches normally. -/
theorem test_odd_pc :
    after (withBytes { State.reset with pc := 0x201 } 0x201 [0x60, 0x07]) (fun t => (t.getV 0x0, t.pc)) =
      some (0x07, 0x203) := by decide +kernel

/-! ### Skips (S1 to S10) -/

/-- S1 and S2. -/
theorem test_se_byte :
    after (ready 0x3000) (·.pc) = some 0x204 ∧ after (ready 0x3001) (·.pc) = some 0x202 := by decide +kernel

/-- S3 and S4. -/
theorem test_sne_byte :
    after (ready 0x4000) (·.pc) = some 0x202 ∧ after (ready 0x4FFF) (·.pc) = some 0x204 := by decide +kernel

/-- S6, and a pair that differs. -/
theorem test_se_reg :
    after (withV (ready 0x512F) [(0x1, 0x10), (0x2, 0x10)]) (·.pc) = some 0x204 ∧
    after (withV (ready 0x512F) [(0x1, 0x10), (0x2, 0x11)]) (·.pc) = some 0x202 := by decide +kernel

/-- S7 and S8. -/
theorem test_sne_reg :
    after (ready 0x9110) (·.pc) = some 0x202 ∧
    after (withV (ready 0x9127) [(0x1, 1), (0x2, 2)]) (·.pc) = some 0x204 := by decide +kernel

/-- S9: the skipped word is not fetched, and no skip request is left. -/
theorem test_skip_over_bad_word :
    after (withBytes (ready 0x3000) 0x202 [0xFF, 0xFF]) (fun t => (t.status, t.pc, t.skip)) =
      some (.running, 0x204, false) := by decide +kernel

/-! ### Loads, immediates, timers and I (W1, W8, M1 to M11) -/

/-- W1. -/
theorem test_ld_byte : after (ready 0x6AC8) (·.getV 0xA) = some 0xC8 := by decide +kernel

/-- M1: the sum wraps, VF is not written. -/
theorem test_add_byte :
    after (withV (ready 0x70FF) [(0x0, 0x01), (0xF, 0x55)]) (vxVfPc 0x0) = some (0x00, 0x55, 0x202) := by
  decide +kernel

/-- M3: the high bits of I become 0. -/
theorem test_ld_i : after { ready 0xA123 with i := 0x1000 } (·.i) = some 0x0123 := by decide +kernel

/-- W8: the mask 0x00 gives 0 whatever the draw. -/
theorem test_rnd_masked (s : State) : ∃ t, exec (.rndVxByte (fieldsOf 0xC300)) s = .next t ∧ t.getV 0x3 = 0 := by
  refine ⟨_, rfl, ?_⟩
  show ((s.afterDraw).setV 0x3 (s.nextRandom &&& 0x00)).getV 0x3 = 0
  simp [State.getV, State.setV]

/-- M5: the mask 0xFF keeps the draw. -/
theorem test_rnd_whole (s : State) :
    ∃ t, exec (.rndVxByte (fieldsOf 0xC4FF)) s = .next t ∧ t.getV 0x4 = Config.randByte s.draws := by
  refine ⟨_, rfl, ?_⟩
  show ((s.afterDraw).setV 0x4 (s.nextRandom &&& 0xFF)).getV 0x4 = Config.randByte s.draws
  have h : ∀ b : Byte, b &&& 255#8 = b := by decide
  simp [State.getV, State.setV, State.nextRandom]
  exact h _

/-- M7, its second instruction. -/
theorem test_ld_vx_dt : after { ready 0xF007 with dt := 0x3C } (fun t => (t.getV 0x0, t.dt)) = some (0x3C, 0x3C) := by
  decide +kernel

/-- M7, its first instruction. -/
theorem test_ld_dt : after (withV (ready 0xF715) [(0x7, 0x3C)]) (·.dt) = some 0x3C := by decide +kernel

/-- M8. -/
theorem test_ld_st : after (withV (ready 0xF118) [(0x1, 0x05)]) (fun t => (t.st, t.dt)) = some (0x05, 0x00) := by
  decide +kernel

/-- M9 and M10: sums beyond 0xFFF are kept. -/
theorem test_add_i :
    after (withV { ready 0xF21E with i := 0x0FFF } [(0x2, 0x01)]) (·.i) = some 0x1000 ∧
    after (withV { ready 0xF01E with i := 0xFF80 } [(0x0, 0x7F)]) (·.i) = some 0xFFFF := by decide +kernel

/-- M11. -/
theorem test_add_i_overflow :
    after (withV { ready 0xF01E with i := 0xFF80 } [(0x0, 0x80)]) (fun t => (t.status, t.i, t.pc)) =
      some (.faulted (.iOverflow 0x200 0xFF80 0x80), 0xFF80, 0x200) := by decide +kernel

/-! ### The 0x8 family (W2, W3, A1 to A31) -/

/-- A1. -/
theorem test_ld_reg :
    after (withV (ready 0x8010) [(0x1, 0x42), (0xF, 0x07)]) (vxVfPc 0x0) = some (0x42, 0x07, 0x202) := by
  decide +kernel

/-- A2: VF is not reset. -/
theorem test_or :
    after (withV (ready 0x8011) [(0x0, 0xF0), (0x1, 0x0C), (0xF, 0x55)]) (vxVfPc 0x0) = some (0xFC, 0x55, 0x202) := by
  decide +kernel

/-- A3. -/
theorem test_and :
    after (withV (ready 0x8012) [(0x0, 0xF0), (0x1, 0x3C)]) (vxVfPc 0x0) = some (0x30, 0x00, 0x202) := by
  decide +kernel

/-- A4. -/
theorem test_xor : after (withV (ready 0x8003) [(0x0, 0x5A)]) (vxVfPc 0x0) = some (0x00, 0x00, 0x202) := by
  decide +kernel

/-- W2 and A9: with y = F the sum uses the old VF. -/
theorem test_add :
    after (withV (ready 0x8014) [(0x0, 200), (0x1, 100)]) (vxVfPc 0x0) = some (44, 1, 0x202) ∧
    after (withV (ready 0x80F4) [(0x0, 0x10), (0xF, 0xF5)]) (vxVfPc 0x0) = some (0x05, 1, 0x202) := by decide +kernel

/-- A8, for both values of ALU_VF_DEST. -/
theorem test_add_vf :
    after (withV (ready 0x8F14) [(0xF, 0x80), (0x1, 0x80)]) (·.getV 0xF) = some 0x00 ∧
    after (keepFlag (withV (ready 0x8F14) [(0xF, 0x80), (0x1, 0x80)])) (·.getV 0xF) = some 0x01 := by decide +kernel

/-- A10 (strict comparison) and A14 (y = F: the new VF is subtracted). -/
theorem test_sub :
    after (withV (ready 0x8015) [(0x0, 5), (0x1, 5)]) (vxVfPc 0x0) = some (0, 0, 0x202) ∧
    after (withV (ready 0x80F5) [(0x0, 0x10), (0xF, 0x05)]) (vxVfPc 0x0) = some (0x0F, 1, 0x202) := by decide +kernel

/-- A13, for both values of ALU_VF_DEST. -/
theorem test_sub_vf :
    after (withV (ready 0x8F15) [(0xF, 5), (0x1, 3)]) (·.getV 0xF) = some 0xFE ∧
    after (keepFlag (withV (ready 0x8F15) [(0xF, 5), (0x1, 3)])) (·.getV 0xF) = some 1 := by decide +kernel

/-- A16 (y ignored) and A18 (a logical shift). -/
theorem test_shr :
    after (withV (ready 0x8016) [(0x0, 0x01), (0x1, 0xAA)]) (vxVfPc 0x0) = some (0x00, 1, 0x202) ∧
    after (withV (ready 0x8006) [(0x0, 0x80)]) (vxVfPc 0x0) = some (0x40, 0, 0x202) := by decide +kernel

/-- A19, for both values of ALU_VF_DEST. -/
theorem test_shr_vf :
    after (withV (ready 0x8F06) [(0xF, 0x03)]) (·.getV 0xF) = some 0x00 ∧
    after (keepFlag (withV (ready 0x8F06) [(0xF, 0x03)])) (·.getV 0xF) = some 1 := by decide +kernel

/-- A21 and A23 (y = F). -/
theorem test_subn :
    after (withV (ready 0x8017) [(0x0, 10), (0x1, 5)]) (vxVfPc 0x0) = some (0xFB, 0, 0x202) ∧
    after (withV (ready 0x80F7) [(0x0, 3), (0xF, 0x0A)]) (vxVfPc 0x0) = some (0xFE, 1, 0x202) := by decide +kernel

/-- A24, for both values of ALU_VF_DEST. -/
theorem test_subn_vf :
    after (withV (ready 0x8F17) [(0xF, 3), (0x1, 10)]) (·.getV 0xF) = some 9 ∧
    after (keepFlag (withV (ready 0x8F17) [(0xF, 3), (0x1, 10)])) (·.getV 0xF) = some 1 := by decide +kernel

/-- A25 and A26: the flag is bit 4, not the bit shifted out. -/
theorem test_shl :
    after (withV (ready 0x8018) [(0x0, 0x80)]) (vxVfPc 0x0) = some (0x00, 0, 0x202) ∧
    after (withV (ready 0x8018) [(0x0, 0x10)]) (vxVfPc 0x0) = some (0x20, 1, 0x202) := by decide +kernel

/-- A30, for both values of ALU_VF_DEST. -/
theorem test_shl_vf :
    after (withV (ready 0x8F08) [(0xF, 0x10)]) (·.getV 0xF) = some 0x02 ∧
    after (keepFlag (withV (ready 0x8F08) [(0xF, 0x10)])) (·.getV 0xF) = some 1 := by decide +kernel

/-! ### Display (W4, W6, G1 to G12) -/

/-- W4: a lit cell and a 0 cell become unset. -/
theorem test_cls :
    after (withCell (withCell (ready 0x00E0) 0 .one) 2047 .zero)
      (fun t => (t.disp.cell 0, t.disp.cell 2047)) = some (.unset, .unset) := by decide +kernel

/-- W6: the sprite is clipped at the right edge and does not wrap. -/
theorem test_drw_clips :
    after (withBytes (withV { ready 0xD011 with i := 0x300 } [(0x0, 60)]) 0x300 [0xFF])
      (fun t => ((List.range 4).map fun c => (t.disp.cell (60 + c), t.disp.cell c), t.disp.cell 64, t.getV 0xF)) =
      some ([(.one, .unset), (.one, .unset), (.one, .unset), (.one, .unset)], .unset, 0) := by decide +kernel

/-- G4 and G7: a collision, and the start column read from VF before VF is written. -/
theorem test_drw_collides :
    after (withCell (withBytes { ready 0xD011 with i := 0x300 } 0x300 [0x80]) 0 .one)
      (fun t => (t.disp.cell 0, t.disp.cell 1, t.getV 0xF)) = some (.zero, .zero, 1) ∧
    after (withBytes (withV { ready 0xDF11 with i := 0x300 } [(0xF, 5)]) 0x300 [0x80])
      (fun t => (t.disp.cell 5, t.getV 0xF)) = some (.one, 0) := by decide +kernel

/-- G8: a sprite that leaves memory, and its boundary G10: the last byte of memory is drawn. -/
theorem test_drw_out_of_range :
    after { ready 0xD012 with i := 0xFFF } (·.status) = some (.faulted (.spriteOutOfRange 0x200 0xFFF 2)) ∧
    after (withBytes { ready 0xD011 with i := 0xFFF } 0xFFF [0xFF]) (fun t => (t.status, t.disp.cell 7)) =
      some (.running, .one) := by decide +kernel

/-! ### Boot, the host and the fixed entry points -/

/-- B5 and B1: the font at 0x050, the program at 0x200, reduced modulo 256. -/
theorem test_boot :
    (match boot defaultParams [0xF0, 0x190] [0x60, 0x07] with
      | .next s => some (s.mem.read 0x050, s.mem.read 0x051, s.mem.read 0x052, s.mem.read 0x200, s.mem.read 0x201)
      | _ => none) = some (0xF0, 0x90, 0x00, 0x60, 0x07) := by decide +kernel

/-- B2: an empty program stops at once with DecodeError(0x0000). -/
theorem test_empty_program : after State.reset (·.status) = some (.faulted (.decodeError 0x0000)) := by decide +kernel

/-- The dump shows the registers and timers (R121). -/
theorem test_dump : (dump { State.reset with dt := 7 }).dt = 7 ∧ (dump State.reset).pc = 0x200 := by decide +kernel

/-- A table word placed for the next step is the instruction that runs, also from a pc that cannot fetch. -/
theorem test_fetch_word :
    after (State.reset.withFetchWord 16 0x6AC8) (·.getV 0xA) = some 0xC8 ∧
    after ({ State.reset with pc := 0x1100 }.withFetchWord 16 0x6AC8) (·.getV 0xA) = some 0xC8 := by decide +kernel

/-! ### Witnesses: a state and operands that meet the hypotheses of each obligation that has some -/

/-- Evaluates the instruction at pc. -/
theorem atInstr_of {s : State} {i : Instr} (h : s.status = .running ∧ s.pc.toNat + 1 ≤ 0xFFF ∧
    decodeOpcode s.opcodeAtPc = .ok i) : s.atInstr i := h

/-- BootInstallsFontAndRom: the largest font and program that are accepted, and the shortest that are not. -/
theorem witness_boot_bounds :
    (0x050 + (List.replicate 432 0xF0).length ≤ 0x200 ∧ 0x200 + (List.replicate 3584 0x60).length ≤ 0x1000) ∧
    0x200 < 0x050 + (List.replicate 433 0xF0).length ∧ 0x1000 < 0x200 + (List.replicate 3585 0x60).length := by
  simp only [List.length_replicate]
  decide

/-- HostMayRewriteTheTimers: both values of the parameter, and a step that changes each timer. -/
theorem witness_host_timers :
    State.reset.params.hostTimerWrites = true ∧
    ({ State.reset with params := { defaultParams with hostTimerWrites := false } }).params.hostTimerWrites = false ∧
    step (withV (ready 0xF715) [(0x7, 0x3C)]) = .next (nextOf (withV (ready 0xF715) [(0x7, 0x3C)])) ∧
    (nextOf (withV (ready 0xF715) [(0x7, 0x3C)])).dt ≠ (withV (ready 0xF715) [(0x7, 0x3C)]).dt ∧
    step (withV (ready 0xF118) [(0x1, 0x05)]) = .next (nextOf (withV (ready 0xF118) [(0x1, 0x05)])) ∧
    (nextOf (withV (ready 0xF118) [(0x1, 0x05)])).st ≠ (withV (ready 0xF118) [(0x1, 0x05)]).st :=
  ⟨rfl, rfl, rfl, by decide +kernel, rfl, by decide +kernel⟩

/-- StepKeepsInvariant: a state that meets the invariant and steps, to the largest pc there is. -/
theorem witness_step_keeps_invariant :
    (withV (ready 0xBFFF) [(0x0, 0xFF)]).Inv ∧
    step (withV (ready 0xBFFF) [(0x0, 0xFF)]) = .next (nextOf (withV (ready 0xBFFF) [(0x0, 0xFF)])) ∧
    (nextOf (withV (ready 0xBFFF) [(0x0, 0xFF)])).pc = 0x1100 :=
  ⟨⟨by decide, rfl, by decide +kernel, by decide +kernel, rfl⟩, rfl, by decide +kernel⟩

/-- EveryMoveKeepsInvariant: each kind of move from a state that meets the invariant. -/
theorem witness_every_move :
    State.reset.Inv ∧ move .step State.reset = .next (nextOf State.reset) ∧
    move (.writeTimers 1 2) State.reset = .next { State.reset with dt := 1, st := 2 } :=
  ⟨⟨rfl, rfl, by decide, by decide +kernel, rfl⟩, rfl, rfl⟩

/-- EveryReachableStateKeepsInvariant: a launch, a host timer write and a step. -/
theorem witness_every_reachable_state :
    ∃ s t, boot defaultParams [0xF0] [0x60, 0x07] = .next s ∧ runMoves [.writeTimers 1 2, .step] s = .next t ∧
      t.getV 0x0 = 0x07 ∧ t.dt = 1 :=
  ⟨_, _, rfl, rfl, by decide +kernel, by decide +kernel⟩

/-- DecodeOfEncodeIsTheInstruction: a well-formed instruction of every format, at the largest field values. -/
theorem witness_well_formed :
    [Instr.cls (fieldsOf 0x00E0), .ret (fieldsOf 0x00EE), .jp (fieldsOf 0x1FFF), .seVxByte (fieldsOf 0x3FFF),
      .seVxVy (fieldsOf 0x5FFF), .shlVxVy (fieldsOf 0x8FF8), .drwVxVy (fieldsOf 0xDFFF),
      .addIVx (fieldsOf 0xFF1E)].all (·.wellFormed) = true := by decide

/-- DecodedInstructionEncodesBack, AssemblerEncodesTheDisassembledLine: opcodes that decode, with ignored bits and
without. -/
theorem witness_decodes :
    decodeOpcode 0x5AB1 = .ok (.seVxVy (fieldsOf 0x5AB1)) ∧ decodeOpcode 0xDFFF = .ok (.drwVxVy (fieldsOf 0xDFFF)) := by
  decide

/-- DecoderFollowsTheOpcodeMap: an opcode of every row, and one of none. -/
theorem witness_rows :
    (opcodeTable.all fun r => decide (decodeOpcode r.pat = .ok (r.make (fieldsOf r.pat)))) = true ∧
    (opcodeTable.all fun r => !r.selects 0x8ABE) = true := by decide

/-- StepRunsTheDecodedInstruction: an instruction after which the Stepper advances, one that requests a skip, and one
that raises. -/
theorem witness_step_runs :
    (ready 0x6AC8).atInstr (.ldVxByte (fieldsOf 0x6AC8)) ∧ (ready 0x3000).atInstr (.seVxByte (fieldsOf 0x3000)) ∧
    (ready 0x00EE).atInstr (.ret (fieldsOf 0x00EE)) ∧
    (∃ u, exec (.seVxByte (fieldsOf 0x3000)) (ready 0x3000).clearSkip = .next u ∧ u.status = .running ∧ u.skip = true) ∧
    ∃ u, exec (.ret (fieldsOf 0x00EE)) (ready 0x00EE).clearSkip = .next u ∧ u.status ≠ .running :=
  ⟨atInstr_of (by decide), atInstr_of (by decide), atInstr_of (by decide), ⟨_, rfl, rfl, rfl⟩,
    ⟨_, rfl, by decide +kernel⟩⟩

/-- FetchIsBigEndianAndBounded: the last pc that fetches and the first that does not. -/
theorem witness_fetch :
    ({ State.reset with pc := 0xFFE }).status = .running ∧ ({ State.reset with pc := 0xFFE }).pc.toNat + 1 ≤ 0xFFF ∧
    ({ State.reset with pc := 0xFFF }).status = .running ∧ 0xFFF < ({ State.reset with pc := 0xFFF }).pc.toNat + 1 := by
  decide +kernel

/-- UndecodableOpcodeFaultsInPlace. -/
theorem witness_undecodable :
    (ready 0x800E).status = .running ∧ (ready 0x800E).fetchable ∧
      decodeOpcode (ready 0x800E).opcodeAtPc = .error (.unrecognised 0x800E) :=
  ⟨rfl, by unfold State.fetchable; decide, by decide⟩

/-- A machine that has faulted. -/
def stopped : State :=
  { State.reset with status := .faulted (.stackUnderflow 0x200) }

/-- FaultedMachineTakesNoStep: a faulted machine, and a host move that still happens. -/
theorem witness_faulted :
    stopped.status = .faulted (.stackUnderflow 0x200) ∧
    runMoves [.writeTimers 1 2] stopped = .next { stopped with dt := 1, st := 2 } :=
  ⟨rfl, rfl⟩

/-- FaultsArePrecise: a step that records a fault. -/
theorem witness_precise :
    (ready 0x00EE).skip = false ∧ step (ready 0x00EE) = .next (nextOf (ready 0x00EE)) ∧
      (nextOf (ready 0x00EE)).status = .faulted (.stackUnderflow 0x200) :=
  ⟨rfl, rfl, by decide +kernel⟩

/-- FaultsAreExactlyTheListedOnes: a running machine under each condition of the list, and under none. -/
theorem witness_faults :
    ([{ State.reset with pc := 0xFFF }, ready 0x800E, { ready 0x2300 with sp := 15 }, ready 0x00EE,
        withV { ready 0xF01E with i := 0xFFFF } [(0x0, 1)], { ready 0xD001 with i := 0x1000 }, ready 0xD000].map
      fun s => decide (s.status = .running)) = List.replicate 7 true ∧
    ([{ State.reset with pc := 0xFFF }, ready 0x800E, { ready 0x2300 with sp := 15 }, ready 0x00EE,
        withV { ready 0xF01E with i := 0xFFFF } [(0x0, 1)], { ready 0xD001 with i := 0x1000 },
        { ready 0xD000 with i := 0x1000 }].map fun s => after s fun t => match t.status with
          | .running => 0
          | .faulted e => e.code) = [some 1, some 2, some 4, some 5, some 6, some 7, some 0] := by decide +kernel

/-- PcAfterEachStep: a step of each shape that raises nothing, a skip taken and one not taken. -/
theorem witness_pc_after :
    (ready 0x2300).atInstr (.call (fieldsOf 0x2300)) ∧ (ready 0x3000).atInstr (.seVxByte (fieldsOf 0x3000)) ∧
    ({ ready 0x00EE with sp := 1 }).atInstr (.ret (fieldsOf 0x00EE)) ∧
    [ready 0x2300, ready 0x3000, ready 0x3001, { ready 0x00EE with sp := 1 }, ready 0xB200, ready 0x6AC8].all
      (fun s => decide (after s (·.status) = some .running)) = true :=
  ⟨atInstr_of (by decide), atInstr_of (by decide), atInstr_of (by decide), by decide +kernel⟩

/-- A machine that has called from 0x200 and stands on the matching RET, after a call of its own that left an address in
the slot above SP (P2's shape, one level deeper). -/
def inSubroutine : State :=
  (withBytes (nextOf (ready 0x2300)) 0x302 [0x00, 0xEE]).setSlot 2 0x30A

/-- ReturnResumesAfterItsCall: W5, with a stack that is not the one the CALL left. -/
theorem witness_return :
    (ready 0x2300).atInstr (.call (fieldsOf 0x2300)) ∧ (ready 0x2300).sp ≠ 15 ∧
    step (ready 0x2300) = .next (nextOf (ready 0x2300)) ∧ inSubroutine.atInstr (.ret (fieldsOf 0x00EE)) ∧
    inSubroutine.sp = (nextOf (ready 0x2300)).sp ∧
    inSubroutine.slot (nextOf (ready 0x2300)).sp = (nextOf (ready 0x2300)).slot (nextOf (ready 0x2300)).sp ∧
    inSubroutine.stack ≠ (nextOf (ready 0x2300)).stack :=
  ⟨atInstr_of (by decide), by decide, rfl, atInstr_of (by decide +kernel), rfl, by decide +kernel, by decide +kernel⟩

/-- ParkedStateIsFixed: a parked state of a program (P1), and the first and the last address that park. -/
theorem witness_parked :
    [(0x20C, [0x12, 0x0A]), (0x002, [0x10, 0x00]), ((0xFFE : Word), [0x1F, 0xFC])].all (fun p =>
      let s := withBytes { State.reset with pc := p.1 } p.1.toNat p.2
      decide (s.status = .running ∧ 2 ≤ s.pc.toNat ∧ s.pc.toNat ≤ 0xFFE ∧
        s.opcodeAtPc.toNat = 0x1000 + (s.pc.toNat - 2) ∧ s.skip = false)) = true := by decide +kernel

/-- RunEndsInExactlyOneWay: a run that ends by a fault, one that is parked from its first state on (ROM 11 FE), which
is then not also stopped, and one that is stopped. -/
theorem witness_run_ends :
    EndsIn 1 State.reset (nextOf State.reset) (.faulted (.decodeError 0x0000)) ∧
    EndsIn 0 (ready 0x11FE) (ready 0x11FE) .parked ∧ ¬EndsIn 0 (ready 0x11FE) (ready 0x11FE) (.stopped 0) ∧
    EndsIn 1 (ready 0x6AC8) (nextOf (ready 0x6AC8)) (.stopped 1) := by
  have hp : (ready 0x11FE).parked := by unfold State.parked; decide
  have hn : ¬(nextOf (ready 0x6AC8)).parked := by unfold State.parked; decide +kernel
  exact ⟨⟨rfl, by decide +kernel⟩, ⟨rfl, hp⟩, fun h => h.2.2.2 hp, ⟨rfl, rfl, by decide +kernel, hn⟩⟩

/-- NoRunWritesMemory: a run of two steps. -/
theorem witness_run :
    ∃ t, Sys2Proof.core.run 2 (withBytes State.reset 0x200 [0x60, 0x07, 0x61, 0x05]) = .next t ∧ t.pc = 0x204 :=
  ⟨_, rfl, by decide +kernel⟩

/-- StepReadsOnlyOpcodeAndSprite: two memories that differ, but neither in the opcode at pc nor in the sprite. -/
theorem witness_reads_only :
    let s := withBytes { ready 0xD011 with i := 0x300 } 0x300 [0x80]
    let m := s.mem.install 0x301 [0x77]
    m ≠ s.mem ∧ Memory.read m s.pc.toNat = s.mem.read s.pc.toNat ∧
      Memory.read m (s.pc.toNat + 1) = s.mem.read (s.pc.toNat + 1) ∧
      decodeOpcode s.opcodeAtPc = .ok (.drwVxVy (fieldsOf 0xD011)) ∧
      (∀ r, r < 1 → Memory.read m (s.i.toNat + r) = s.mem.read (s.i.toNat + r)) ∧ step s = .next (nextOf s) := by
  refine ⟨by decide, by decide, by decide, by decide, ?_, rfl⟩
  intro r hr
  obtain rfl : r = 0 := by omega
  decide

/-- InstructionsReadOnlyListedParts: two states that agree on what LD_Vx_Vy reads, and differ elsewhere, the old
destination among it. -/
theorem witness_agree :
    let s := ready 0x8010
    let s' := { s with dt := 9, i := 5 }.setV 0x0 0x77
    Agree (mayRead s (.ldVxVy (fieldsOf 0x8010)) ++ mayKeep s (.ldVxVy (fieldsOf 0x8010))) s s' ∧
      s.getV 0x0 ≠ s'.getV 0x0 := by
  refine ⟨⟨?_, rfl⟩, by decide +kernel⟩
  intro p hp
  simp only [mayRead, mayKeep, List.append_nil, List.mem_singleton] at hp
  subst hp
  rfl

/-- InstructionsReadOnlyListedParts: two states that agree on what CALL reads and may leave unwritten, where it faults
and where it does not. -/
theorem witness_agree_conditional :
    let i := Instr.call (fieldsOf 0x2300)
    Agree (mayRead (ready 0x2300) i ++ mayKeep (ready 0x2300) i) (ready 0x2300) { ready 0x2300 with dt := 9 } ∧
    Agree (mayRead { ready 0x2300 with sp := 15 } i ++ mayKeep { ready 0x2300 with sp := 15 } i)
      { ready 0x2300 with sp := 15 } { ready 0x2300 with sp := 15, dt := 9 } := by
  refine ⟨⟨?_, rfl⟩, ⟨?_, rfl⟩⟩ <;> intro p hp <;>
    simp only [mayRead, mayKeep, List.cons_append, List.nil_append, List.mem_cons, List.not_mem_nil, or_false] at hp <;>
    rcases hp with rfl | rfl | rfl | rfl | rfl | rfl <;> rfl

/-- UnusedFieldsAreIgnored: 5xy? with other bits 3:0, SHR with another y, and JP_V0 with another y and, through kk,
another n. -/
theorem witness_same_operands :
    sameOperands defaultParams (.seVxVy (fieldsOf 0x5120)) (.seVxVy (fieldsOf 0x512F)) ∧
    sameOperands defaultParams (.shrVxVy (fieldsOf 0x8016)) (.shrVxVy (fieldsOf 0x80A6)) ∧
    sameOperands defaultParams (.cls (fieldsOf 0x00E0)) (.cls (fieldsOf 0xFFFF)) :=
  ⟨⟨rfl, rfl⟩, rfl, trivial⟩

/-- JpSetsPcToItsAddress, SkipsRequestTheSkipOnTheirCondition: a machine that stands on each of these kinds. -/
theorem witness_jump_and_skips :
    (ready 0x1FFF).atInstr (.jp (fieldsOf 0x1FFF)) ∧ (ready 0x3000).atInstr (.seVxByte (fieldsOf 0x3000)) ∧
    (ready 0x4FFF).atInstr (.sneVxByte (fieldsOf 0x4FFF)) ∧ (ready 0x512F).atInstr (.seVxVy (fieldsOf 0x512F)) ∧
    (ready 0x9127).atInstr (.sneVxVy (fieldsOf 0x9127)) :=
  ⟨atInstr_of (by decide), atInstr_of (by decide), atInstr_of (by decide), atInstr_of (by decide),
    atInstr_of (by decide)⟩

/-- RetReturnsThroughTheStack, CallPushesItsOwnAddress: the stack pointers where each clause begins and ends. -/
theorem witness_stack_pointers :
    State.reset.sp = 0 ∧ ({ State.reset with sp := 1 }).sp ≠ 0 ∧ ({ State.reset with sp := 15 }).sp ≠ 0 ∧
    ({ State.reset with sp := 15 }).sp = 15 ∧ ({ State.reset with sp := 14 }).sp ≠ 15 := by decide +kernel

/-- JpV0JumpsAndMayFallThrough, AddWritesCarryThenSum and the other flag-writing kinds: both values of the
parameters. -/
theorem witness_params :
    State.reset.params.jpV0Fallthrough = false ∧ (fallThrough State.reset).params.jpV0Fallthrough = true ∧
    State.reset.params.aluVfDest = .result ∧ (keepFlag State.reset).params.aluVfDest = .flag ∧
    (fieldsOf 0x8F14).x = 0xF#4 ∧ (fieldsOf 0x8E14).x ≠ 0xF#4 ∧ (fieldsOf 0x80F5).y = 0xF#4 := by decide

/-- RndMasksAFreshByte: a mask of 0. -/
theorem witness_rnd_mask : (fieldsOf 0xC300).kk = 0 := by decide

/-- AddIKeepsTheSumOrOverflows: the largest sum that is kept and the smallest that is not. -/
theorem witness_add_i :
    ({ State.reset with i := 0xFFFF }).i.toNat + (({ State.reset with i := 0xFFFF }).getV 0x0).toNat = 0xFFFF ∧
    ((State.reset.setI 0xFFFF).setV 0x0 1).i.toNat + (((State.reset.setI 0xFFFF).setV 0x0 1).getV 0x0).toNat =
      0xFFFF + 1 := by decide +kernel

/-- DrwXorsTheClippedSprite: height 0 from beyond memory, the last byte of memory, and one byte beyond it; a cell that
a sprite at the last column and row visits, and the next one, which it does not. -/
theorem witness_drw :
    (fieldsOf 0xD000).n.toNat = 0 ∧ (0xFFF : Word).toNat + (fieldsOf 0xD011).n.toNat - 1 = 0xFFF ∧
    1 ≤ (fieldsOf 0xD011).n.toNat ∧ 0xFFF < (0x1000 : Word).toNat + (fieldsOf 0xD011).n.toNat - 1 ∧
    visited 63 31 15 2047 ∧ ¬visited 63 31 15 2046 ∧ ¬visited 0 0 0 0 ∧ visited 0 0 1 7 ∧ ¬visited 0 0 1 8 := by
  decide

/-- DrwXorsTheClippedSprite: a collision (G4), and a draw without one. -/
theorem witness_drw_collision :
    let s := withCell (withBytes { ready 0xD011 with i := 0x300 } 0x300 [0x80]) 0 .one
    (visited 0 0 1 0 ∧ (s.disp.cell 0).lit = true ∧ s.spriteBitAt 0 0 0 = true) ∧
    ∀ idx : Nat, idx < 2048 → visited 0 0 1 idx → (State.reset.disp.cell idx).lit = true →
      State.reset.spriteBitAt 0 0 idx = false := by
  refine ⟨by decide +kernel, ?_⟩
  intro idx _ _ _
  simp [State.spriteBitAt, State.reset, Memory.read, unlistedByte]

/-- A machine about to draw a sprite of one row 0xFF at (0, 0). -/
def drawing : State :=
  withBytes { ready 0xD011 with i := 0x300 } 0x300 [0xFF]

/-- DrawingTwiceRestoresThePicture: G11, the second draw from where the first one left the machine. -/
theorem witness_drawing_twice :
    ∃ t, exec (.drwVxVy (fieldsOf 0xD011)) drawing = .next t ∧ t.status = .running ∧ t.i = (nextOf drawing).i ∧
      (nextOf drawing).mem = t.mem ∧ (nextOf drawing).disp = t.disp ∧
      (nextOf drawing).getV (fieldsOf 0xD011).x = drawing.getV (fieldsOf 0xD011).x ∧
      (nextOf drawing).getV (fieldsOf 0xD011).y = drawing.getV (fieldsOf 0xD011).y :=
  ⟨_, rfl, rfl, rfl, rfl, rfl, by decide +kernel, by decide +kernel⟩

end Sys2Proof.Tests
end

/-! SUPPORT. What the meanings that branch do in each branch, said once, and the rule of what each operation of the
state writes. From them: every instruction completes and writes only what 10_state.md R14 and R18 to R24 list (O26). -/

namespace Sys2Proof.Machine

/-! ### The meanings that branch, one equation per branch -/

/-- RET on an empty stack (41_control_flow.md R73). -/
theorem exec_ret_of_sp_eq_zero {f : Fields} {s : State} (h : s.sp = 0) :
    exec (.ret f) s = .next (s.faultedWith (.stackUnderflow s.pc)) :=
  if_pos h

/-- RET on a non-empty stack (R73). -/
theorem exec_ret_of_sp_ne_zero {f : Fields} {s : State} (h : s.sp ≠ 0) :
    exec (.ret f) s = .next ((s.setPc (s.slot s.sp)).setSp (s.sp - 1)) :=
  if_neg h

/-- CALL on a full stack (R75). -/
theorem exec_call_of_sp_eq_max {f : Fields} {s : State} (h : s.sp = 15) :
    exec (.call f) s = .next (s.faultedWith (.stackOverflow s.pc s.sp)) :=
  if_pos h

/-- CALL on a stack with a free slot (R75). -/
theorem exec_call_of_sp_ne_max {f : Fields} {s : State} (h : s.sp ≠ 15) :
    exec (.call f) s = .next (((s.setSp (s.sp + 1)).setSlot (s.sp + 1) s.pc).setPc (absolute f)) :=
  if_neg h

/-- JP_V0 without the fallthrough (R76). -/
theorem exec_jpV0_of_no_fallthrough {f : Fields} {s : State} (h : s.params.jpV0Fallthrough = false) :
    exec (.jpV0 f) s = .next (s.setPc (s.v0Plus f)) := by
  simp [exec, execJpV0, h]

/-- JP_V0 with the fallthrough into RND's body (R76). -/
theorem exec_jpV0_of_fallthrough {f : Fields} {s : State} (h : s.params.jpV0Fallthrough = true) :
    exec (.jpV0 f) s = .next ((s.setPc (s.v0Plus f)).randomInto f.x f.kk) := by
  simp [exec, execJpV0, h]

/-- ADD_I_Vx with a sum beyond 16 bits (43_loads_and_immediates.md R88). -/
theorem exec_addIVx_of_overflow {f : Fields} {s : State} (h : s.iPlusVx f > 0xFFFF) :
    exec (.addIVx f) s = .next (s.faultedWith (.iOverflow s.pc s.i (s.vx f))) :=
  if_pos h

/-- ADD_I_Vx with a sum that I can hold (R88). -/
theorem exec_addIVx_of_fits {f : Fields} {s : State} (h : ¬s.iPlusVx f > 0xFFFF) :
    exec (.addIVx f) s = .next (s.setI (BitVec.ofNat 16 (s.iPlusVx f))) :=
  if_neg h

/-- The canvas a DRW that does not fault ends with (45_display.md R102). -/
def State.spriteDrawn (s : State) (f : Fields) : Canvas :=
  drawRows s.mem s.i.toNat (s.startX f) (s.startY f) (List.range f.n.toNat) ⟨s.disp, false⟩

/-- DRW of a sprite that lies in memory (R102). -/
theorem exec_drwVxVy_of_in_memory {f : Fields} {s : State} (h : s.spriteInMemory f = true) :
    exec (.drwVxVy f) s =
      .next ((s.setDisp (s.spriteDrawn f).disp).setV 0xF#4 (flag (s.spriteDrawn f).collided)) :=
  if_pos h

/-- DRW of a sprite that reaches beyond memory (R102). -/
theorem exec_drwVxVy_of_out_of_range {f : Fields} {s : State} (h : ¬s.spriteInMemory f = true) :
    exec (.drwVxVy f) s = .next (s.faultedWith (.spriteOutOfRange s.pc s.i f.n)) :=
  if_neg h

/-! ### What each operation of the state writes -/

/-- The frame of `Frame`, and memory kept as a list: `Frame` compares it byte by byte only, and the canonical form
(log 25) is a property of the list. -/
structure Writes (may : List Part) (s t : State) : Prop where
  mem : t.mem = s.mem
  frame : Frame may s t

/-- Sameness of a part carries over from one change of the state to the next. -/
theorem Part.same.trans {p : Part} {s t u : State} (h : p.same s t) (h' : p.same t u) : p.same s u := by
  cases p with
  | mem => exact fun a => (h' a).trans (h a)
  | _ => exact Eq.trans h' h

/-- Sameness of a part does not depend on the order of the states. -/
theorem Part.same.symm {p : Part} {s t : State} (h : p.same s t) : p.same t s := by
  cases p with
  | mem => exact fun a => (h a).symm
  | _ => exact Eq.symm h

variable {may now : List Part} {s t u : State}

/-- Two changes in a row write what either of them writes. -/
theorem Writes.trans (h : Writes may s t) (h' : Writes now t u) : Writes (may ++ now) s u where
  mem := h'.mem.trans h.mem
  frame := ⟨fun p hp => (h.frame.1 p (by simp_all)).trans (h'.frame.1 p (by simp_all)), h'.frame.2.trans h.frame.2⟩

/-- What writes only the listed parts writes only those of a longer list. -/
theorem Writes.mono (h : Writes now s t) (hsub : now ⊆ may) : Writes may s t where
  mem := h.mem
  frame := ⟨fun p hp => h.frame.1 p fun hn => hp (hsub hn), h.frame.2⟩

/-- A change of one part. -/
theorem Writes.single {q : Part} (hm : t.mem = s.mem) (hps : t.params = s.params) (h : ∀ p, p ≠ q → p.same s t) :
    Writes [q] s t where
  mem := hm
  frame := ⟨fun p hp => h p (by simpa using hp), hps⟩

theorem writes_setV (s : State) (r : Nibble) (b : Byte) : Writes [.v r] s (s.setV r b) :=
  .single rfl rfl fun p hp => by cases p <;> simp_all [Part.same, State.getV_setV]

theorem writes_setSlot (s : State) (k : Fin 16) (w : Word) : Writes [.slot k] s (s.setSlot k w) :=
  .single rfl rfl fun p hp => by cases p <;> simp_all [Part.same, State.slot_setSlot]

theorem writes_setPc (s : State) (w : Word) : Writes [.pc] s (s.setPc w) :=
  .single rfl rfl fun p hp => by cases p <;> simp_all [Part.same]

theorem writes_setI (s : State) (w : Word) : Writes [.i] s (s.setI w) :=
  .single rfl rfl fun p hp => by cases p <;> simp_all [Part.same]

theorem writes_setSp (s : State) (k : Fin 16) : Writes [.sp] s (s.setSp k) :=
  .single rfl rfl fun p hp => by cases p <;> simp_all [Part.same]

theorem writes_setDt (s : State) (b : Byte) : Writes [.dt] s (s.setDt b) :=
  .single rfl rfl fun p hp => by cases p <;> simp_all [Part.same]

theorem writes_setSt (s : State) (b : Byte) : Writes [.st] s (s.setSt b) :=
  .single rfl rfl fun p hp => by cases p <;> simp_all [Part.same]

theorem writes_setDisp (s : State) (d : Display) : Writes [.disp] s (s.setDisp d) :=
  .single rfl rfl fun p hp => by cases p <;> simp_all [Part.same]

theorem writes_faultedWith (s : State) (e : CoreFault) : Writes [.status] s (s.faultedWith e) :=
  .single rfl rfl fun p hp => by cases p <;> simp_all [Part.same]

theorem writes_skipIf (s : State) (c : Bool) : Writes [.skip] s (s.skipIf c) :=
  .single (s.skipIf_mem c) (s.skipIf_params c) fun p hp => by cases p <;> simp_all [Part.same]

theorem writes_afterDraw (s : State) : Writes [.draws] s s.afterDraw :=
  .single rfl rfl fun p hp => by cases p <;> simp_all [Part.same]

/-- RND's body writes its register and takes a draw (43_loads_and_immediates.md R84). -/
theorem writes_randomInto (s : State) (x : Nibble) (kk : Byte) : Writes [.v x, .draws] s (s.randomInto x kk) :=
  ((writes_afterDraw s).trans (writes_setV _ x _)).mono (by simp)

/-- A flag-writing ALU instruction writes VF and its destination, whichever write VF keeps (44_alu.md R89). -/
theorem writes_flagThenResult (s : State) (x : Nibble) (fl : Byte) (g : State → Byte) :
    Writes [.v 0xF#4, .v x] s (s.flagThenResult x fl g) := by
  have two := (writes_setV s 0xF#4 fl).trans (writes_setV _ x (g (s.setV 0xF#4 fl)))
  unfold State.flagThenResult
  split
  · exact two
  · split
    · exact (two.trans (writes_setV _ 0xF#4 fl)).mono (by simp)
    · exact two

/-! ### What an instruction writes -/

/-- Every instruction answers a next state, and writes only the parts listed for its kind. -/
theorem exec_writes (i : Instr) (s : State) : ∃ t, exec i s = .next t ∧ Writes (mayWrite s i) s t := by
  cases i with
  | cls f => exact ⟨_, rfl, writes_setDisp s _⟩
  | ret f =>
    by_cases h : s.sp = 0
    · exact ⟨_, exec_ret_of_sp_eq_zero h, (writes_faultedWith s _).mono (by simp [mayWrite])⟩
    · exact ⟨_, exec_ret_of_sp_ne_zero h, ((writes_setPc s _).trans (writes_setSp _ _)).mono (by simp [mayWrite])⟩
  | jp f => exact ⟨_, rfl, writes_setPc s _⟩
  | call f =>
    by_cases h : s.sp = 15
    · exact ⟨_, exec_call_of_sp_eq_max h, (writes_faultedWith s _).mono (by simp [mayWrite])⟩
    · exact ⟨_, exec_call_of_sp_ne_max h,
        (((writes_setSp s _).trans (writes_setSlot _ _ _)).trans (writes_setPc _ _)).mono (by simp [mayWrite])⟩
  | seVxByte f | sneVxByte f | seVxVy f | sneVxVy f => exact ⟨_, rfl, writes_skipIf s _⟩
  | ldVxByte f | addVxByte f | ldVxVy f | orVxVy f | andVxVy f | xorVxVy f | ldVxDt f =>
    exact ⟨_, rfl, writes_setV s f.x _⟩
  | addVxVy f | subVxVy f | shrVxVy f | subnVxVy f | shlVxVy f => exact ⟨_, rfl, writes_flagThenResult s f.x _ _⟩
  | ldI f => exact ⟨_, rfl, writes_setI s _⟩
  | jpV0 f =>
    cases h : s.params.jpV0Fallthrough with
    | false => exact ⟨_, exec_jpV0_of_no_fallthrough h, (writes_setPc s _).mono (by simp [mayWrite, h])⟩
    | true =>
      exact ⟨_, exec_jpV0_of_fallthrough h,
        ((writes_setPc s _).trans (writes_randomInto _ f.x f.kk)).mono (by simp [mayWrite, h])⟩
  | rndVxByte f => exact ⟨_, rfl, writes_randomInto s f.x f.kk⟩
  | drwVxVy f =>
    by_cases h : s.spriteInMemory f = true
    · exact ⟨_, exec_drwVxVy_of_in_memory h,
        ((writes_setDisp s _).trans (writes_setV _ 0xF#4 _)).mono (by simp [mayWrite])⟩
    · exact ⟨_, exec_drwVxVy_of_out_of_range h, (writes_faultedWith s _).mono (by simp [mayWrite])⟩
  | ldDtVx f => exact ⟨_, rfl, writes_setDt s _⟩
  | ldStVx f => exact ⟨_, rfl, writes_setSt s _⟩
  | addIVx f =>
    by_cases h : s.iPlusVx f > 0xFFFF
    · exact ⟨_, exec_addIVx_of_overflow h, (writes_faultedWith s _).mono (by simp [mayWrite])⟩
    · exact ⟨_, exec_addIVx_of_fits h, (writes_setI s _).mono (by simp [mayWrite])⟩

/-- What an instruction has written, of the state it is known to have answered. -/
theorem Writes.of_exec {i : Instr} (h : exec i s = .next t) : Writes (mayWrite s i) s t := by
  obtain ⟨t', ht', hw⟩ := exec_writes i s
  obtain rfl : t' = t := by simpa [ht'] using h
  exact hw

/-- No instruction changes memory (20_memory.md R31, R41). -/
theorem exec_mem {i : Instr} (h : exec i s = .next t) : t.mem = s.mem :=
  (Writes.of_exec h).mem

/-- Settles O26: the frame part of what every instruction writes. -/
theorem instructionsWriteOnlyListedParts : Obligations.InstructionsWriteOnlyListedParts := fun i s =>
  let ⟨t, ht, hw⟩ := exec_writes i s
  ⟨t, ht, hw.frame⟩

end Sys2Proof.Machine

/-! SUPPORT. The invariant: it holds of the creation state (O4), and every step (O5) and every move of the whole system
(O47) keeps it. The creation state's values (O1). -/

namespace Sys2Proof.Machine

/-! ### The creation state (10_state.md R29) -/

@[simp] theorem State.reset_getV (r : Nibble) : State.reset.getV r = 0 := by
  simp [State.getV, State.reset]

@[simp] theorem State.reset_slot (k : Fin 16) : State.reset.slot k = 0 := by
  simp [State.slot, State.reset]

theorem State.reset_disp : State.reset.disp = blankDisplay := rfl

/-- Settles O1: nothing is listed in memory, and registers, slots and cells are replicated from one value. -/
theorem resetIsTheCreationState : Obligations.ResetIsTheCreationState :=
  ⟨fun _ _ => rfl, State.reset_getV, rfl, rfl, rfl, State.reset_slot, rfl, rfl,
    fun idx _ => by rw [State.reset_disp, Display.cell_blank], rfl⟩

/-- Settles O4. -/
theorem invariantHoldsAtReset : Obligations.InvariantHoldsAtReset where
  mem := Memory.reset_wf
  skip := rfl
  pc := by decide
  slots k := by simp
  slot0 := State.reset_slot 0

/-! ### What an instruction must leave for the advance to restore the invariant -/

/-- The invariant as it stands between the Execute stage and the advance: pc leaves room for the advance, and a skip
request is pending only where the advance will consume it. -/
structure State.MidInv (s : State) : Prop where
  mem : s.mem.wf = true
  /-- The advance adds 2 to at most V0 + nnn (41_control_flow.md R76). -/
  pc : s.pc.toNat ≤ 0x10FE
  /-- A skip is taken from a fetched address, and by a kind that raises no fault (42_skips.md). -/
  skip : s.skip = true → s.status = .running ∧ s.pc.toNat ≤ 0xFFE
  slots : ∀ k, (s.slot k).toNat ≤ 0xFFE
  slot0 : s.slot 0 = 0

variable {s t : State}

/-- The advance after the Execute stage restores the invariant (40_step_cycle.md R69). -/
theorem State.MidInv.afterExecute (h : s.MidInv) : s.afterExecute.Inv := by
  obtain ⟨hmem, hpc, hskip, hslots, hslot0⟩ := h
  rcases s.afterExecute_cases with ⟨-, heq⟩ | ⟨e, hst, heq⟩ <;> rw [heq]
  · refine ⟨hmem, rfl, ?_, fun k => by simpa using hslots k, by simpa using hslot0⟩
    rw [State.advance_pc]
    split
    · have := (hskip ‹_›).2
      bv_omega
    · bv_omega
  · have hclear : s.skip = false := Bool.eq_false_iff.mpr fun hk => by simpa [hst] using (hskip hk).1
    exact ⟨hmem, hclear, by omega, hslots, hslot0⟩

/-- What writes none of the parts that the invariant speaks of keeps it. -/
theorem State.Inv.of_writes {may : List Part} (h : s.Inv) (hw : Writes may s t) (hpc : .pc ∉ may) (hskip : .skip ∉ may)
    (hslot : ∀ k, .slot k ∉ may) : t.Inv := by
  have keptPc : t.pc = s.pc := hw.frame.1 .pc hpc
  have keptSkip : t.skip = s.skip := hw.frame.1 .skip hskip
  have keptSlot (k) : t.slot k = s.slot k := hw.frame.1 (.slot k) (hslot k)
  exact ⟨hw.mem ▸ h.mem, keptSkip ▸ h.skip, keptPc ▸ h.pc, fun k => keptSlot k ▸ h.slots k, keptSlot 0 ▸ h.slot0⟩

/-- Recording a fault keeps the invariant (60_exceptions.md R108). -/
theorem State.Inv.faultedWith (h : s.Inv) (e : CoreFault) : (s.faultedWith e).Inv :=
  h.of_writes (writes_faultedWith s e) (by simp) (by simp) (by simp)

/-- The timers are no part of the invariant. -/
theorem State.Inv.setTimers (h : s.Inv) (d u : Byte) : ((s.setDt d).setSt u).Inv :=
  h.of_writes ((writes_setDt s d).trans (writes_setSt _ u)) (by simp) (by simp) (by simp)

/-- The invariant holds at the start of the Execute stage too, where the skip request has been cleared. -/
theorem State.Inv.clearSkip (h : s.Inv) : s.clearSkip.Inv := by
  rwa [State.clearSkip_of_not_skip h.skip]

/-- A state with the memory, the slots and the skip request of one that meets the invariant, and a pc that leaves room
for the advance. -/
theorem State.Inv.midInv (h : s.Inv) (hmem : t.mem = s.mem) (hpc : t.pc.toNat ≤ 0x10FE) (hskip : t.skip = s.skip)
    (hslots : ∀ k, t.slot k = s.slot k) : t.MidInv where
  mem := hmem ▸ h.mem
  pc := hpc
  skip hs := by simp [hskip, h.skip] at hs
  slots k := hslots k ▸ h.slots k
  slot0 := hslots 0 ▸ h.slot0

/-- An address operand is at most 0xFFF (30_encoding.md R48). -/
theorem absolute_toNat_le (f : Fields) : (absolute f).toNat ≤ 0xFFF := by
  have := f.nnn.isLt
  simp only [absolute, BitVec.toNat_setWidth]
  omega

/-- V0 + nnn is at most 0x10FE, so it is not reduced (41_control_flow.md R76). -/
theorem State.v0Plus_toNat_le (s : State) (f : Fields) : (s.v0Plus f).toNat ≤ 0x10FE := by
  have h0 := (s.getV 0x0#4).isLt
  have ha := absolute_toNat_le f
  simp only [State.v0Plus, BitVec.toNat_add, BitVec.toNat_setWidth]
  omega

/-- The next stack pointer is not slot 0, where there is a next one (10_state.md R20). -/
theorem sp_add_one_ne_zero {k : Fin 16} (h : k ≠ 15) : k + 1 ≠ 0 := by
  revert k; decide

/-- RET jumps to what a slot holds, which is the address of a CALL. -/
theorem exec_ret_midInv {f : Fields} (hs : s.Inv) (hpc : s.pc.toNat ≤ 0xFFE) (h : exec (.ret f) s = .next t) :
    t.MidInv := by
  by_cases hsp : s.sp = 0
  · rw [exec_ret_of_sp_eq_zero hsp] at h
    cases h
    exact hs.midInv rfl (by simp; omega) rfl (by simp)
  · rw [exec_ret_of_sp_ne_zero hsp] at h
    cases h
    have := hs.slots s.sp
    exact hs.midInv rfl (by simp; omega) rfl (by simp)

/-- CALL pushes the address it was fetched from, above slot 0. -/
theorem exec_call_midInv {f : Fields} (hs : s.Inv) (hpc : s.pc.toNat ≤ 0xFFE) (h : exec (.call f) s = .next t) :
    t.MidInv := by
  by_cases hsp : s.sp = 15
  · rw [exec_call_of_sp_eq_max hsp] at h
    cases h
    exact hs.midInv rfl (by simp; omega) rfl (by simp)
  · rw [exec_call_of_sp_ne_max hsp] at h
    cases h
    have ha := absolute_toNat_le f
    refine ⟨hs.mem, by simp; omega, fun hk => by simp [hs.skip] at hk, fun k => ?_, ?_⟩
    · simp only [State.slot_setPc, State.slot_setSlot, State.slot_setSp]
      split
      · exact hpc
      · exact hs.slots k
    · simp [State.slot_setSlot, (sp_add_one_ne_zero hsp).symm, hs.slot0]

/-- JP_V0 jumps to V0 + nnn, with the random byte or without. -/
theorem exec_jpV0_midInv {f : Fields} (hs : s.Inv) (h : exec (.jpV0 f) s = .next t) : t.MidInv := by
  have hv := s.v0Plus_toNat_le f
  cases hp : s.params.jpV0Fallthrough with
  | false =>
    rw [exec_jpV0_of_no_fallthrough hp] at h
    cases h
    exact hs.midInv rfl hv rfl (by simp)
  | true =>
    rw [exec_jpV0_of_fallthrough hp] at h
    cases h
    exact hs.midInv rfl hv rfl (by simp)

/-- What writes neither pc nor a slot, and not both a skip request and the status, leaves what the advance needs. -/
theorem Writes.midInv {may : List Part} (hw : Writes may s t) (hs : s.Inv) (hr : s.status = .running)
    (hpc : s.pc.toNat ≤ 0xFFE) (hnpc : .pc ∉ may) (hnslot : ∀ k, .slot k ∉ may)
    (hnskip : .skip ∉ may ∨ .status ∉ may) : t.MidInv := by
  have keptPc : t.pc = s.pc := hw.frame.1 .pc hnpc
  have keptSlot (k) : t.slot k = s.slot k := hw.frame.1 (.slot k) (hnslot k)
  refine ⟨hw.mem ▸ hs.mem, by rw [keptPc]; omega, fun hk => ⟨?_, by rw [keptPc]; exact hpc⟩,
    fun k => keptSlot k ▸ hs.slots k, keptSlot 0 ▸ hs.slot0⟩
  rcases hnskip with hn | hn
  · have keptSkip : t.skip = s.skip := hw.frame.1 .skip hn
    simp [keptSkip, hs.skip] at hk
  · have keptStatus : t.status = s.status := hw.frame.1 .status hn
    exact keptStatus.trans hr

/-- Every instruction executed at a fetched address leaves what the advance needs. Only the four control transfers
write pc or a slot (10_state.md R16, R20); for the rest the frame says enough. -/
theorem exec_midInv {i : Instr} (hs : s.Inv) (hr : s.status = .running) (hpc : s.pc.toNat ≤ 0xFFE)
    (h : exec i s = .next t) : t.MidInv := by
  have hw := Writes.of_exec h
  cases i with
  | ret f => exact exec_ret_midInv hs hpc h
  | jp f =>
    cases h
    have := absolute_toNat_le f
    exact hs.midInv rfl (by simp; omega) rfl (by simp)
  | call f => exact exec_call_midInv hs hpc h
  | jpV0 f => exact exec_jpV0_midInv hs h
  | _ => exact hw.midInv hs hr hpc (by simp [mayWrite]) (by simp [mayWrite]) (by simp [mayWrite])

/-! ### Steps and moves -/

/-- Settles O5: a step faults in place, or executes an instruction at a fetched address and then advances. -/
theorem stepKeepsInvariant : Obligations.StepKeepsInvariant := by
  intro s t hs h
  obtain ⟨hr, ⟨-, rfl⟩ | ⟨-, -, rfl⟩ | ⟨i, u, ⟨-, hf, -⟩, hx, rfl⟩⟩ := cycle_cases h
  · exact hs.faultedWith _
  · exact hs.faultedWith _
  · have hpc : s.pc.toNat ≤ 0xFFE := by unfold State.fetchable at hf; omega
    exact (exec_midInv hs.clearSkip hr hpc hx).afterExecute

/-- Settles O47: a move is a step, or a timer write. -/
theorem everyMoveKeepsInvariant : Obligations.EveryMoveKeepsInvariant := by
  intro m s t hs h
  cases m with
  | step => exact stepKeepsInvariant s t hs h
  | writeTimers d u =>
    obtain ⟨-, rfl⟩ := hostWriteTimers_cases h
    exact hs.setTimers d u

end Sys2Proof.Machine

/-! SUPPORT. Agreement of two machines is carried along by each operation of the state that is given equal values. From
that: what an instruction writes depends only on what it is listed to read and on what a conditional write leaves
(O27). -/

namespace Sys2Proof.Machine

variable {ps qs : List Part} {s s' t t' : State}

/-! ### What agreeing states have in common -/

theorem Agree.mono (h : Agree qs s s') (hsub : ps ⊆ qs) : Agree ps s s' :=
  ⟨fun p hp => h.1 p (hsub hp), h.2⟩

theorem Agree.getV (h : Agree ps s s') {r : Nibble} (hr : .v r ∈ ps) : s'.getV r = s.getV r := h.1 _ hr

theorem Agree.slot (h : Agree ps s s') {k : Fin 16} (hk : .slot k ∈ ps) : s'.slot k = s.slot k := h.1 _ hk

theorem Agree.pc (h : Agree ps s s') (hp : .pc ∈ ps) : s'.pc = s.pc := h.1 _ hp

theorem Agree.i (h : Agree ps s s') (hp : .i ∈ ps) : s'.i = s.i := h.1 _ hp

theorem Agree.sp (h : Agree ps s s') (hp : .sp ∈ ps) : s'.sp = s.sp := h.1 _ hp

theorem Agree.dt (h : Agree ps s s') (hp : .dt ∈ ps) : s'.dt = s.dt := h.1 _ hp

theorem Agree.disp (h : Agree ps s s') (hp : .disp ∈ ps) : s'.disp = s.disp := h.1 _ hp

theorem Agree.skip (h : Agree ps s s') (hp : .skip ∈ ps) : s'.skip = s.skip := h.1 _ hp

theorem Agree.draws (h : Agree ps s s') (hp : .draws ∈ ps) : s'.draws = s.draws := h.1 _ hp

theorem Agree.vx (h : Agree ps s s') {f : Fields} (hr : .v f.x ∈ ps) : s'.vx f = s.vx f := h.getV hr

theorem Agree.vy (h : Agree ps s s') {f : Fields} (hr : .v f.y ∈ ps) : s'.vy f = s.vy f := h.getV hr

/-! ### What the operations of the state do to agreement -/

/-- Two changes that write one part, with the same outcome there, extend the agreement by that part: everything else
is as before on both sides. -/
theorem Agree.write {q : Part} (h : Agree ps s s') (hw : Writes [q] s t) (hw' : Writes [q] s' t') (hq : q.same t t') :
    Agree (q :: ps) t t' := by
  refine ⟨fun p hp => ?_, hw'.frame.2.trans (h.2.trans hw.frame.2.symm)⟩
  by_cases hpq : p = q
  · exact hpq ▸ hq
  · have hn : p ∉ [q] := by simpa using hpq
    have before : p.same s s' := h.1 p (by simpa [hpq] using hp)
    exact ((hw.frame.1 p hn).symm.trans before).trans (hw'.frame.1 p hn)

theorem Agree.setV (h : Agree ps s s') (r : Nibble) {b b' : Byte} (hb : b' = b) :
    Agree (.v r :: ps) (s.setV r b) (s'.setV r b') :=
  h.write (writes_setV s r b) (writes_setV s' r b') (by simp [Part.same, hb])

theorem Agree.setSlot (h : Agree ps s s') (k : Fin 16) {w w' : Word} (hw : w' = w) :
    Agree (.slot k :: ps) (s.setSlot k w) (s'.setSlot k w') :=
  h.write (writes_setSlot s k w) (writes_setSlot s' k w') (by simp [Part.same, hw])

theorem Agree.setPc (h : Agree ps s s') {w w' : Word} (hw : w' = w) : Agree (.pc :: ps) (s.setPc w) (s'.setPc w') :=
  h.write (writes_setPc s w) (writes_setPc s' w') hw

theorem Agree.setI (h : Agree ps s s') {w w' : Word} (hw : w' = w) : Agree (.i :: ps) (s.setI w) (s'.setI w') :=
  h.write (writes_setI s w) (writes_setI s' w') hw

theorem Agree.setSp (h : Agree ps s s') {k k' : Fin 16} (hk : k' = k) : Agree (.sp :: ps) (s.setSp k) (s'.setSp k') :=
  h.write (writes_setSp s k) (writes_setSp s' k') hk

theorem Agree.setDt (h : Agree ps s s') {b b' : Byte} (hb : b' = b) : Agree (.dt :: ps) (s.setDt b) (s'.setDt b') :=
  h.write (writes_setDt s b) (writes_setDt s' b') hb

theorem Agree.setSt (h : Agree ps s s') {b b' : Byte} (hb : b' = b) : Agree (.st :: ps) (s.setSt b) (s'.setSt b') :=
  h.write (writes_setSt s b) (writes_setSt s' b') hb

theorem Agree.setDisp (h : Agree ps s s') {d d' : Display} (hd : d' = d) :
    Agree (.disp :: ps) (s.setDisp d) (s'.setDisp d') :=
  h.write (writes_setDisp s d) (writes_setDisp s' d') hd

theorem Agree.faultedWith (h : Agree ps s s') {e e' : CoreFault} (he : e' = e) :
    Agree (.status :: ps) (s.faultedWith e) (s'.faultedWith e') :=
  h.write (writes_faultedWith s e) (writes_faultedWith s' e') (by simp [Part.same, he])

/-- A skip request that is not made leaves the old one, so agreement on that is needed. -/
theorem Agree.skipIf (h : Agree ps s s') (hs : .skip ∈ ps) {c c' : Bool} (hc : c' = c) :
    Agree (.skip :: ps) (s.skipIf c) (s'.skipIf c') :=
  h.write (writes_skipIf s c) (writes_skipIf s' c') (by simp [Part.same, hc, h.skip hs])

/-- Two machines with the same counter draw the same byte (log 3). -/
theorem Agree.randomInto (h : Agree ps s s') (hd : .draws ∈ ps) (x : Nibble) (kk : Byte) :
    Agree (.v x :: .draws :: ps) (s.randomInto x kk) (s'.randomInto x kk) := by
  have drawn : Agree (.draws :: ps) s.afterDraw s'.afterDraw :=
    h.write (writes_afterDraw s) (writes_afterDraw s') (by simp [Part.same, h.draws hd])
  exact drawn.setV x (by simp [State.nextRandom, h.draws hd])

/-- The result of a flag-writing ALU instruction may depend on what the flag write left, so it has to be equal wherever
the states agree on VF besides (44_alu.md R89). -/
theorem Agree.flagThenResult (h : Agree ps s s') (x : Nibble) {fl fl' : Byte} {g : State → Byte} {g' : State → Byte}
    (hfl : fl' = fl) (hg : ∀ u u', Agree (.v 0xF#4 :: ps) u u' → g' u' = g u) :
    Agree [.v 0xF#4, .v x] (s.flagThenResult x fl g) (s'.flagThenResult x fl' g') := by
  have flagged := h.setV 0xF#4 hfl
  have written := flagged.setV x (hg _ _ flagged)
  unfold State.flagThenResult
  rw [h.2]
  split
  · exact written.mono (by simp)
  · split
    · exact (written.setV 0xF#4 hfl).mono (by simp)
    · exact written.mono (by simp)

/-! ### Drawing -/

/-- Drawing reads memory byte by byte, so it does not depend on how memory is listed. -/
theorem drawRows_congr {m m' : Memory} (hm : ∀ a, m'.read a = m.read a) (base x y : Nat) (rows : List Nat)
    (cv : Canvas) : drawRows m' base x y rows cv = drawRows m base x y rows cv := by
  induction rows generalizing cv with
  | nil => rfl
  | cons r rs ih => simp only [drawRows, hm, ih]

/-- Agreement on all that a draw reads gives one canvas (45_display.md R102). -/
theorem Agree.spriteDrawn {f : Fields} (h : Agree [.v f.x, .v f.y, .i, .mem, .disp] s s') :
    s'.spriteDrawn f = s.spriteDrawn f := by
  have hm : ∀ a, s'.mem.read a = s.mem.read a := h.1 .mem (by simp)
  have hx : s'.startX f = s.startX f := by simp only [State.startX, h.vx (f := f) (by simp)]
  have hy : s'.startY f = s.startY f := by simp only [State.startY, h.vy (f := f) (by simp)]
  have hi : s'.i = s.i := h.i (by simp)
  have hd : s'.disp = s.disp := h.disp (by simp)
  simp only [State.spriteDrawn, hx, hy, hi, hd, drawRows_congr hm]

/-! ### The kinds that write on a condition -/

/-- Execution of the instruction from the two states ends in agreement on everything that the instruction may write. -/
def ReadsOnly (i : Instr) (s s' : State) : Prop :=
  ∃ t t', exec i s = .next t ∧ exec i s' = .next t' ∧ Agree (mayWrite s i) t t'

theorem readsOnly_ret {f : Fields} (h : Agree (mayRead s (.ret f) ++ mayKeep s (.ret f)) s s') :
    ReadsOnly (.ret f) s s' := by
  have hsp : s'.sp = s.sp := h.sp (by simp [mayRead])
  have hpc : s'.pc = s.pc := h.pc (by simp [mayRead])
  by_cases h0 : s.sp = 0
  · exact ⟨_, _, exec_ret_of_sp_eq_zero h0, exec_ret_of_sp_eq_zero (hsp.trans h0),
      (h.faultedWith (by rw [hpc])).mono (by simp [mayWrite, mayRead])⟩
  · have hslot : s'.slot s'.sp = s.slot s.sp := by rw [hsp]; exact h.slot (by simp [mayRead])
    exact ⟨_, _, exec_ret_of_sp_ne_zero h0, exec_ret_of_sp_ne_zero (hsp ▸ h0),
      ((h.setPc hslot).setSp (by rw [hsp])).mono (by simp [mayWrite, mayRead, mayKeep])⟩

theorem readsOnly_call {f : Fields} (h : Agree (mayRead s (.call f) ++ mayKeep s (.call f)) s s') :
    ReadsOnly (.call f) s s' := by
  have hsp : s'.sp = s.sp := h.sp (by simp [mayRead])
  have hpc : s'.pc = s.pc := h.pc (by simp [mayRead])
  by_cases hmax : s.sp = 15
  · exact ⟨_, _, exec_call_of_sp_eq_max hmax, exec_call_of_sp_eq_max (hsp.trans hmax),
      (h.faultedWith (by rw [hpc, hsp])).mono (by simp [mayWrite, mayRead, mayKeep])⟩
  · refine ⟨_, _, exec_call_of_sp_ne_max hmax, exec_call_of_sp_ne_max (hsp ▸ hmax), ?_⟩
    rw [hsp]
    exact (((h.setSp rfl).setSlot (s.sp + 1) hpc).setPc rfl).mono (by simp [mayWrite, mayRead, mayKeep])

theorem readsOnly_jpV0 {f : Fields} (h : Agree (mayRead s (.jpV0 f) ++ mayKeep s (.jpV0 f)) s s') :
    ReadsOnly (.jpV0 f) s s' := by
  have hv : s'.v0Plus f = s.v0Plus f := by
    simp only [State.v0Plus, h.getV (r := 0x0#4) (by simp only [mayRead]; split <;> simp)]
  cases hp : s.params.jpV0Fallthrough with
  | false =>
    exact ⟨_, _, exec_jpV0_of_no_fallthrough hp, exec_jpV0_of_no_fallthrough (h.2 ▸ hp),
      (h.setPc hv).mono (by simp [mayWrite, hp])⟩
  | true =>
    exact ⟨_, _, exec_jpV0_of_fallthrough hp, exec_jpV0_of_fallthrough (h.2 ▸ hp),
      ((h.setPc hv).randomInto (by simp [mayRead, hp]) f.x f.kk).mono (by simp [mayWrite, hp])⟩

theorem readsOnly_drwVxVy {f : Fields} (h : Agree (mayRead s (.drwVxVy f) ++ mayKeep s (.drwVxVy f)) s s') :
    ReadsOnly (.drwVxVy f) s s' := by
  have hpc : s'.pc = s.pc := h.pc (by simp [mayRead])
  have hi : s'.i = s.i := h.i (by simp [mayRead])
  have hin : s'.spriteInMemory f = s.spriteInMemory f := by simp only [State.spriteInMemory, hi]
  by_cases hmem : s.spriteInMemory f = true
  · have hcv : s'.spriteDrawn f = s.spriteDrawn f := (h.mono (by simp [mayRead])).spriteDrawn
    exact ⟨_, _, exec_drwVxVy_of_in_memory hmem, exec_drwVxVy_of_in_memory (hin.trans hmem),
      ((h.setDisp (by rw [hcv])).setV 0xF#4 (by rw [hcv])).mono (by simp [mayWrite, mayKeep])⟩
  · exact ⟨_, _, exec_drwVxVy_of_out_of_range hmem, exec_drwVxVy_of_out_of_range (hin ▸ hmem),
      (h.faultedWith (by rw [hpc, hi])).mono (by simp [mayWrite, mayRead, mayKeep])⟩

theorem readsOnly_addIVx {f : Fields} (h : Agree (mayRead s (.addIVx f) ++ mayKeep s (.addIVx f)) s s') :
    ReadsOnly (.addIVx f) s s' := by
  have hpc : s'.pc = s.pc := h.pc (by simp [mayRead])
  have hi : s'.i = s.i := h.i (by simp [mayRead])
  have hx : s'.vx f = s.vx f := h.vx (by simp [mayRead])
  have hsum : s'.iPlusVx f = s.iPlusVx f := by simp only [State.iPlusVx, hi, hx]
  by_cases hbig : s.iPlusVx f > 0xFFFF
  · exact ⟨_, _, exec_addIVx_of_overflow hbig, exec_addIVx_of_overflow (hsum ▸ hbig),
      (h.faultedWith (by rw [hpc, hi, hx])).mono (by simp [mayWrite, mayRead])⟩
  · exact ⟨_, _, exec_addIVx_of_fits hbig, exec_addIVx_of_fits (hsum ▸ hbig),
      (h.setI (by rw [hsum])).mono (by simp [mayWrite, mayKeep])⟩

/-! ### Every kind -/

/-- Each meaning is a chain of the state's operations, given equal values wherever the states agree on what the kind is
listed to read. -/
theorem exec_readsOnly {i : Instr} (h : Agree (mayRead s i ++ mayKeep s i) s s') : ReadsOnly i s s' := by
  cases i with
  | cls f => exact ⟨_, _, rfl, rfl, h.setDisp rfl⟩
  | ret f => exact readsOnly_ret h
  | jp f => exact ⟨_, _, rfl, rfl, h.setPc rfl⟩
  | call f => exact readsOnly_call h
  | seVxByte f | sneVxByte f =>
    have hx : s'.vx f = s.vx f := h.vx (by simp [mayRead])
    exact ⟨_, _, rfl, rfl, (h.skipIf (by simp [mayKeep]) (by rw [hx])).mono (by simp [mayWrite])⟩
  | seVxVy f | sneVxVy f =>
    have hx : s'.vx f = s.vx f := h.vx (by simp [mayRead])
    have hy : s'.vy f = s.vy f := h.vy (by simp [mayRead])
    exact ⟨_, _, rfl, rfl, (h.skipIf (by simp [mayKeep]) (by rw [hx, hy])).mono (by simp [mayWrite])⟩
  | ldVxByte f => exact ⟨_, _, rfl, rfl, h.setV f.x rfl⟩
  | addVxByte f =>
    have hx : s'.vx f = s.vx f := h.vx (by simp [mayRead])
    exact ⟨_, _, rfl, rfl, (h.setV f.x (by rw [hx])).mono (by simp [mayWrite])⟩
  | ldVxVy f => exact ⟨_, _, rfl, rfl, (h.setV f.x (h.vy (by simp [mayRead]))).mono (by simp [mayWrite])⟩
  | orVxVy f | andVxVy f | xorVxVy f =>
    have hx : s'.vx f = s.vx f := h.vx (by simp [mayRead])
    have hy : s'.vy f = s.vy f := h.vy (by simp [mayRead])
    exact ⟨_, _, rfl, rfl, (h.setV f.x (by rw [hx, hy])).mono (by simp [mayWrite])⟩
  | addVxVy f =>
    have hx : s'.vx f = s.vx f := h.vx (by simp [mayRead])
    have hy : s'.vy f = s.vy f := h.vy (by simp [mayRead])
    exact ⟨_, _, rfl, rfl, h.flagThenResult f.x (by rw [hx, hy]) fun _ _ _ => by rw [hx, hy]⟩
  | subVxVy f | subnVxVy f =>
    have hx : s'.vx f = s.vx f := h.vx (by simp [mayRead])
    have hy : s'.vy f = s.vy f := h.vy (by simp [mayRead])
    exact ⟨_, _, rfl, rfl, h.flagThenResult f.x (by rw [hx, hy]) fun u u' hu => by
      rw [hu.vx (f := f) (by simp [mayRead]), hu.vy (f := f) (by simp [mayRead])]⟩
  | shrVxVy f | shlVxVy f =>
    have hx : s'.vx f = s.vx f := h.vx (by simp [mayRead])
    exact ⟨_, _, rfl, rfl, h.flagThenResult f.x (by rw [hx]) fun u u' hu => by
      rw [hu.vx (f := f) (by simp [mayRead])]⟩
  | ldI f => exact ⟨_, _, rfl, rfl, h.setI rfl⟩
  | jpV0 f => exact readsOnly_jpV0 h
  | rndVxByte f => exact ⟨_, _, rfl, rfl, (h.randomInto (by simp [mayRead]) f.x f.kk).mono (by simp [mayWrite])⟩
  | drwVxVy f => exact readsOnly_drwVxVy h
  | ldVxDt f => exact ⟨_, _, rfl, rfl, (h.setV f.x (h.dt (by simp [mayRead]))).mono (by simp [mayWrite])⟩
  | ldDtVx f => exact ⟨_, _, rfl, rfl, (h.setDt (h.vx (by simp [mayRead]))).mono (by simp [mayWrite])⟩
  | ldStVx f => exact ⟨_, _, rfl, rfl, (h.setSt (h.vx (by simp [mayRead]))).mono (by simp [mayWrite])⟩
  | addIVx f => exact readsOnly_addIVx h

/-- Settles O27. -/
theorem instructionsReadOnlyListedParts : Obligations.InstructionsReadOnlyListedParts :=
  fun _ _ _ h => exec_readsOnly h

end Sys2Proof.Machine

/-! SUPPORT. Memory is never written (O24), and a step reads it only at pc and pc + 1 and, in a DRW, at the sprite
(O25): everything else of a machine evolves alike over any other memory that agrees there. -/

namespace Sys2Proof.Machine

variable {s t : State} {m m' : Memory}

/-! ### No write -/

@[simp] theorem State.afterExecute_mem (s : State) : s.afterExecute.mem = s.mem := by
  rcases s.afterExecute_cases with ⟨-, heq⟩ | ⟨_, -, heq⟩ <;> simp [heq]

/-- No step changes memory (20_memory.md R31). -/
theorem step_mem (h : step s = .next t) : t.mem = s.mem := by
  obtain ⟨-, ⟨-, rfl⟩ | ⟨-, -, rfl⟩ | ⟨i, u, -, hx, rfl⟩⟩ := cycle_cases h
  · rfl
  · rfl
  · simp [exec_mem hx]

/-- Settles O24: every step keeps the memory the run began with. -/
theorem noRunWritesMemory : Obligations.NoRunWritesMemory := fun _ s _ h =>
  core_run_induction (P := fun u => u.mem = s.mem) (fun _ _ hu hstep => (step_mem hstep).trans hu) rfl h

/-! ### The machine over another memory -/

/-- The machine with its memory replaced. -/
def State.withMem (s : State) (m : Memory) : State :=
  { s with mem := m }

/-- Replacing memory leaves every other part as it was. -/
theorem Part.same_withMem {p : Part} (hp : p ≠ .mem) (s : State) (m : Memory) : p.same s (s.withMem m) := by
  cases p with
  | mem => exact absurd rfl hp
  | _ => rfl

/-- The registers are determined by their reads. -/
theorem State.v_ext (h : ∀ r, t.getV r = s.getV r) : t.v = s.v :=
  Vector.ext fun k hk => h (BitVec.ofFin ⟨k, hk⟩)

/-- The stack is determined by its slots. -/
theorem State.stack_ext (h : ∀ k, t.slot k = s.slot k) : t.stack = s.stack :=
  Vector.ext fun k hk => h ⟨k, hk⟩

/-- A state is determined by its parts, its parameters and its memory. -/
theorem State.eq_withMem_of_same (h : ∀ p : Part, p ≠ .mem → p.same s t) (hparams : t.params = s.params) :
    t = s.withMem t.mem := by
  have hv : t.v = s.v := State.v_ext fun r => h (.v r) (by simp)
  have hstack : t.stack = s.stack := State.stack_ext fun k => h (.slot k) (by simp)
  have hpc : t.pc = s.pc := h .pc (by simp)
  have hi : t.i = s.i := h .i (by simp)
  have hsp : t.sp = s.sp := h .sp (by simp)
  have hdt : t.dt = s.dt := h .dt (by simp)
  have hst : t.st = s.st := h .st (by simp)
  have hdisp : t.disp = s.disp := h .disp (by simp)
  have hstatus : t.status = s.status := h .status (by simp)
  have hskip : t.skip = s.skip := h .skip (by simp)
  have hdraws : t.draws = s.draws := h .draws (by simp)
  rw [State.withMem, ← hv, ← hstack, ← hpc, ← hi, ← hsp, ← hdt, ← hst, ← hdisp, ← hstatus, ← hskip, ← hdraws,
    ← hparams]

theorem mayWrite_withMem (s : State) (m : Memory) (i : Instr) : mayWrite (s.withMem m) i = mayWrite s i := by
  cases i <;> rfl

theorem State.afterExecute_withMem (s : State) (m : Memory) :
    (s.withMem m).afterExecute = s.afterExecute.withMem m := by
  rcases s.afterExecute_cases with ⟨hst, heq⟩ | ⟨e, hst, heq⟩
  · rw [heq, State.afterExecute_of_running (s := s.withMem m) hst]
    rfl
  · rw [heq, State.afterExecute_of_faulted (s := s.withMem m) hst]

/-- The opcode at pc depends on the two bytes there alone (20_memory.md R32). -/
theorem State.opcodeAtPc_withMem (hhi : m.read s.pc.toNat = s.mem.read s.pc.toNat)
    (hlo : m.read (s.pc.toNat + 1) = s.mem.read (s.pc.toNat + 1)) : (s.withMem m).opcodeAtPc = s.opcodeAtPc := by
  simp only [State.opcodeAtPc, State.withMem, hhi, hlo]

/-! ### Execution over another memory -/

/-- DRW is the one kind that reads memory in the Execute stage (20_memory.md R32). -/
theorem not_reads_mem_of_ne_drw {i : Instr} (hi : ∀ f, i ≠ .drwVxVy f) (s : State) :
    .mem ∉ mayRead s i ++ mayKeep s i := by
  cases i with
  | drwVxVy f => exact absurd rfl (hi f)
  | jpV0 f => cases h : s.params.jpV0Fallthrough <;> simp [mayRead, mayKeep, h]
  | _ => simp [mayRead, mayKeep]

/-- An instruction that reads no memory: what it writes is the same by what it reads, the rest by its frame. -/
theorem exec_withMem_of_not_reads {i : Instr} (hi : .mem ∉ mayRead s i ++ mayKeep s i) (m : Memory)
    (h : exec i s = .next t) : exec i (s.withMem m) = .next (t.withMem m) := by
  have agree : Agree (mayRead s i ++ mayKeep s i) s (s.withMem m) :=
    ⟨fun p hp => Part.same_withMem (fun hmem => hi (hmem ▸ hp)) s m, rfl⟩
  obtain ⟨u, t', hu, ht', written⟩ := exec_readsOnly agree
  obtain rfl : u = t := by simpa [hu] using h
  have others (p : Part) (hp : p ≠ .mem) : p.same u t' := by
    by_cases hpw : p ∈ mayWrite s i
    · exact written.1 p hpw
    · have before : p.same u s := ((Writes.of_exec hu).frame.1 p hpw).symm
      have after : p.same (s.withMem m) t' := (Writes.of_exec ht').frame.1 p (by rwa [mayWrite_withMem])
      exact (before.trans (Part.same_withMem hp s m)).trans after
  have hmem : t'.mem = m := exec_mem ht'
  rw [ht', State.eq_withMem_of_same others written.2, hmem]

/-- Drawing reads the bytes of the given rows alone. -/
theorem drawRows_congr_of_rows {base x y : Nat} {rows : List Nat}
    (hm : ∀ r ∈ rows, m'.read (base + r) = m.read (base + r)) (cv : Canvas) :
    drawRows m' base x y rows cv = drawRows m base x y rows cv := by
  induction rows generalizing cv with
  | nil => rfl
  | cons r rs ih =>
    obtain ⟨hr, hrs⟩ := List.forall_mem_cons.mp hm
    simp only [drawRows, hr, ih hrs]

/-- DRW over a memory with the same sprite (20_memory.md R32, 45_display.md R102). -/
theorem exec_drwVxVy_withMem {f : Fields}
    (hm : ∀ r, r < f.n.toNat → m.read (s.i.toNat + r) = s.mem.read (s.i.toNat + r))
    (h : exec (.drwVxVy f) s = .next t) : exec (.drwVxVy f) (s.withMem m) = .next (t.withMem m) := by
  by_cases hin : s.spriteInMemory f = true
  · have hdrawn : (s.withMem m).spriteDrawn f = s.spriteDrawn f :=
      drawRows_congr_of_rows (fun r hr => hm r (List.mem_range.mp hr)) _
    rw [exec_drwVxVy_of_in_memory hin] at h
    cases h
    rw [exec_drwVxVy_of_in_memory (s := s.withMem m) hin, hdrawn]
    rfl
  · rw [exec_drwVxVy_of_out_of_range hin] at h
    cases h
    exact exec_drwVxVy_of_out_of_range (s := s.withMem m) hin

/-- Every instruction over a memory that agrees on the sprite of a DRW. -/
theorem exec_withMem {i : Instr}
    (hm : ∀ f, i = .drwVxVy f → ∀ r, r < f.n.toNat → m.read (s.i.toNat + r) = s.mem.read (s.i.toNat + r))
    (h : exec i s = .next t) : exec i (s.withMem m) = .next (t.withMem m) := by
  by_cases hi : ∃ f, i = .drwVxVy f
  · obtain ⟨f, rfl⟩ := hi
    exact exec_drwVxVy_withMem (hm f rfl) h
  · exact exec_withMem_of_not_reads (not_reads_mem_of_ne_drw (not_exists.mp hi) s) m h

/-- Settles O25: the fetch reads the two bytes at pc, and execution over the other memory gives the same. -/
theorem stepReadsOnlyOpcodeAndSprite : Obligations.StepReadsOnlyOpcodeAndSprite := by
  intro s t m hhi hlo hsprite h
  change step (s.withMem m) = .next (t.withMem m)
  have hop : (s.withMem m).opcodeAtPc = s.opcodeAtPc := State.opcodeAtPc_withMem hhi hlo
  obtain ⟨hr, ⟨hf, rfl⟩ | ⟨hf, ⟨e, hd⟩, rfl⟩ | ⟨i, u, ⟨-, hf, hd⟩, hx, rfl⟩⟩ := cycle_cases h
  · exact cycle_of_not_fetchable (s := s.withMem m) hr hf
  · have faults := cycle_of_undecodable (execute := exec) (s := s.withMem m) hr hf (by rw [hop, hd])
    rwa [hop] at faults
  · have hi : (s.withMem m).atInstr i := ⟨hr, hf, by rw [hop, hd]⟩
    have hx' : exec i (s.withMem m).clearSkip = .next (u.withMem m) :=
      exec_withMem (s := s.clearSkip) (fun f hf' => hsprite f (hf' ▸ hd)) hx
    have runs := cycle_of_decoded (execute := exec) hi
    rw [hx'] at runs
    rw [← State.afterExecute_withMem]
    exact runs

end Sys2Proof.Machine

/-! SUPPORT. The Decoder said once: which opcodes it gives to which instruction (`decodeOpcode_eq_ok_iff`), and that the
order of the rows does not matter (O12). The opcode map itself (O10) and the source's examples (O13). -/

namespace Sys2Proof

open Machine (Selects)
open Laws.EncodesToRow (row)

/-! ### The rows of the opcode map -/

/-- An opcode that two rows select agrees with both matches on the bits that both masks fix. -/
theorem Row.pat_and_mask_of_selects {r q : Row} {op : Opcode} (hr : r.selects op = true) (hq : q.selects op = true) :
    r.pat &&& q.mask = q.pat &&& r.mask := by
  rw [Row.selects, beq_iff_eq] at hr hq
  rw [← hr, ← hq, BitVec.and_assoc, BitVec.and_assoc, BitVec.and_comm r.mask]

/-- Settles O12: any two rows fix some bit in different ways. -/
theorem opcodeRowsArePairwiseDisjoint : Obligations.OpcodeRowsArePairwiseDisjoint := by
  have differ : opcodeTable.Pairwise fun r q => r.pat &&& q.mask ≠ q.pat &&& r.mask := by decide
  exact differ.imp fun hne _ ⟨hr, hq⟩ => hne (Row.pat_and_mask_of_selects hr hq)

/-- A row of the opcode map makes instructions of its own kind, with the fields it is given. -/
theorem row_make_of_mem : ∀ r ∈ opcodeTable, ∀ f, row (r.make f) = (r.mask, r.pat) ∧ (r.make f).fields = f := by
  simp [opcodeTable, row, Instr.fields]

/-- Every instruction is made by a row of the opcode map, and `row` gives that row's mask and match. -/
theorem exists_row (i : Instr) : ∃ r ∈ opcodeTable, row i = (r.mask, r.pat) ∧ r.make i.fields = i := by
  have made : ∃ r ∈ opcodeTable, r.make i.fields = i := by cases i <;> simp [opcodeTable, Instr.fields]
  obtain ⟨r, hr, hmake⟩ := made
  obtain ⟨hrow, -⟩ := row_make_of_mem r hr i.fields
  exact ⟨r, hr, hmake ▸ hrow, hmake⟩

/-! ### The search -/

/-- A search that succeeds has found a row that selects the opcode (30_encoding.md R51). -/
theorem exists_selects_of_firstMatch {op : Opcode} {i : Instr} {rows : List Row} (h : firstMatch op rows = .ok i) :
    ∃ r ∈ rows, r.selects op = true ∧ r.make (fieldsOf op) = i := by
  induction rows with
  | nil => cases h
  | cons r rs ih =>
    by_cases hr : r.selects op = true
    · exact ⟨r, List.mem_cons_self, hr, by simpa [firstMatch, hr] using h⟩
    · obtain ⟨q, hq, hsel⟩ := ih (by simpa [firstMatch, hr] using h)
      exact ⟨q, List.mem_cons_of_mem r hq, hsel⟩

/-- Where no two rows select one opcode, the search finds any row that selects it (R56). -/
theorem firstMatch_of_selects {op : Opcode} {rows : List Row} {r : Row}
    (hdisj : rows.Pairwise fun r q => ∀ op : Opcode, ¬(r.selects op = true ∧ q.selects op = true)) (hr : r ∈ rows)
    (hsel : r.selects op = true) : firstMatch op rows = .ok (r.make (fieldsOf op)) := by
  induction hdisj with
  | nil => cases hr
  | @cons q qs hq _ ih =>
    rcases List.mem_cons.mp hr with rfl | hr
    · simp [firstMatch, hsel]
    · have hnq : ¬q.selects op = true := fun hqsel => hq r hr op ⟨hqsel, hsel⟩
      simpa [firstMatch, hnq] using ih hr

/-- The search fails exactly where no row selects the opcode, and then reports the opcode (R57). -/
theorem firstMatch_eq_error_iff {op : Opcode} {rows : List Row} :
    firstMatch op rows = .error (.unrecognised op) ↔ ∀ r ∈ rows, op &&& r.mask ≠ r.pat := by
  induction rows with
  | nil => simp [firstMatch]
  | cons r rs ih => by_cases hr : op &&& r.mask = r.pat <;> simp [firstMatch, Row.selects, hr, ih]

/-! ### The Decoder -/

theorem decodeOpcode_of_selects {op : Opcode} {r : Row} (hr : r ∈ opcodeTable) (h : op &&& r.mask = r.pat) :
    decodeOpcode op = .ok (r.make (fieldsOf op)) :=
  firstMatch_of_selects opcodeRowsArePairwiseDisjoint hr (beq_iff_eq.mpr h)

/-- An opcode decodes to an instruction exactly where it has the instruction's fields and, under the mask of the
kind's row, its match (R45, R50). -/
theorem decodeOpcode_eq_ok_iff {op : Opcode} {i : Instr} :
    decodeOpcode op = .ok i ↔ i.fields = fieldsOf op ∧ op &&& (row i).1 = (row i).2 := by
  constructor
  · intro h
    obtain ⟨r, hr, hsel, rfl⟩ := exists_selects_of_firstMatch h
    obtain ⟨hrow, hfields⟩ := row_make_of_mem r hr (fieldsOf op)
    exact ⟨hfields, by rw [hrow]; exact beq_iff_eq.mp hsel⟩
  · rintro ⟨hfields, hsel⟩
    obtain ⟨r, hr, hrow, hmake⟩ := exists_row i
    rw [hrow] at hsel
    rw [decodeOpcode_of_selects hr hsel, ← hfields, hmake]

theorem decodeOpcode_eq_error_iff {op : Opcode} :
    decodeOpcode op = .error (.unrecognised op) ↔ ∀ r ∈ opcodeTable, op &&& r.mask ≠ r.pat :=
  firstMatch_eq_error_iff

/-- Settles O10: the rows are those of the opcode map, in its order. -/
theorem decoderFollowsTheOpcodeMap : Obligations.DecoderFollowsTheOpcodeMap := by
  have selects : opcodeTable.Forall fun r => Selects r.mask r.pat r.make :=
    List.forall_iff_forall_mem.mpr fun r hr _ h => decodeOpcode_of_selects hr h
  refine ⟨selects, fun op hnone => decodeOpcode_eq_error_iff.mpr fun r hr => ?_⟩
  exact hnone (r.mask, r.pat) (List.mem_map_of_mem (f := fun r : Row => (r.mask, r.pat)) hr)

/-- Settles O13, by running the Decoder on each opcode. -/
theorem decodingExamplesOfTheSource : Obligations.DecodingExamplesOfTheSource := by
  unfold Obligations.DecodingExamplesOfTheSource
  decide

end Sys2Proof

/-! SUPPORT. Opcodes, their fields and their tests as numbers (30_encoding.md R48, R50): the fields are remainders and
quotients (O9), and the opcodes that no row selects are ranges (O11). -/

namespace Sys2Proof

/-- The bits of a concatenation, as a number. -/
theorem toNat_append_eq_add {m n : Nat} (hi : BitVec m) (lo : BitVec n) :
    (hi ++ lo).toNat = hi.toNat * 2 ^ n + lo.toNat := by
  rw [BitVec.toNat_append, ← Nat.shiftLeft_add_eq_or_of_lt lo.isLt, Nat.shiftLeft_eq]

/-- A mask of k low ones takes a remainder. -/
theorem toNat_and_low_ones (op : Opcode) {w k : Nat} (hw : w = 2 ^ k - 1) (hk : k ≤ 16) :
    (op &&& BitVec.ofNat 16 w).toNat = op.toNat % 2 ^ k := by
  have hle : 2 ^ k ≤ 2 ^ 16 := Nat.pow_le_pow_right (by decide) hk
  rw [BitVec.toNat_and, BitVec.toNat_ofNat, Nat.mod_eq_of_lt (by omega), hw, Nat.and_two_pow_sub_one_eq_mod]

section Fields

variable (op : Opcode)

theorem fieldsOf_n_toNat : (fieldsOf op).n.toNat = op.toNat % 16 := by
  simp [fieldsOf]

theorem fieldsOf_nnn_toNat : (fieldsOf op).nnn.toNat = op.toNat % 4096 := by
  simp [fieldsOf]

theorem fieldsOf_x_toNat : (fieldsOf op).x.toNat = op.toNat / 256 % 16 := by
  simp [fieldsOf, Nat.shiftRight_eq_div_pow]

theorem fieldsOf_y_toNat : (fieldsOf op).y.toNat = op.toNat / 16 % 16 := by
  simp [fieldsOf, Nat.shiftRight_eq_div_pow]

theorem fieldsOf_kk_toNat : (fieldsOf op).kk.toNat = op.toNat % 256 := by
  simp [fieldsOf]

/-- The fields overlap, as numbers. -/
theorem Fields.overlap_iff (f : Fields) : f.overlap = true ↔
    f.nnn.toNat = f.x.toNat * 256 + f.kk.toNat ∧ f.kk.toNat = f.y.toNat * 16 + f.n.toNat := by
  simp only [Fields.overlap, Bool.and_eq_true, beq_iff_eq, ← BitVec.toNat_inj, toNat_append_eq_add, Nat.reducePow]

theorem fieldsOf_overlap : (fieldsOf op).overlap = true := by
  rw [Fields.overlap_iff, fieldsOf_n_toNat, fieldsOf_nnn_toNat, fieldsOf_x_toNat, fieldsOf_y_toNat, fieldsOf_kk_toNat]
  omega

/-- Fields that overlap are determined by nnn. -/
theorem Fields.eq_of_nnn_eq {f g : Fields} (hf : f.overlap = true) (hg : g.overlap = true) (h : f.nnn = g.nnn) :
    f = g := by
  obtain ⟨n, nnn, x, y, kk⟩ := f
  obtain ⟨n', nnn', x', y', kk'⟩ := g
  rw [Fields.overlap_iff] at hf hg
  simp only [Fields.mk.injEq, ← BitVec.toNat_inj] at *
  omega

/-! ### The masks of the opcode map, as numbers -/

/-- Each mask of the opcode map keeps the top nibble and the low k bits, for k = 0, 4, 8 or 12 (30_encoding.md R50). -/
theorem toNat_and_top_low {k : Nat} (hk : k ≤ 12) :
    (op &&& (0xF000 ||| BitVec.ofNat 16 (2 ^ k - 1))).toNat = op.toNat / 4096 * 4096 + op.toNat % 2 ^ k := by
  have htop : (op &&& 0xF000).toNat = (op.toNat / 4096) <<< 12 := by
    have hshift : op &&& (0xF000 : Opcode) = op >>> 12 <<< 12 := (BitVec.shiftLeft_ushiftRight (x := op) (n := 12)).symm
    rw [hshift, BitVec.toNat_shiftLeft, BitVec.toNat_ushiftRight, Nat.shiftRight_eq_div_pow, Nat.shiftLeft_eq,
      Nat.mod_eq_of_lt (by omega)]
  have hlow : op.toNat % 2 ^ k < 2 ^ 12 := (Nat.mod_lt _ (by positivity)).trans_le (Nat.pow_le_pow_right (by decide) hk)
  rw [BitVec.and_or_distrib_left, BitVec.toNat_or, htop, toNat_and_low_ones op rfl (by omega),
    ← Nat.shiftLeft_add_eq_or_of_lt hlow, Nat.shiftLeft_eq]

theorem toNat_and_F000 : (op &&& 0xF000).toNat = op.toNat / 4096 * 4096 := by
  simpa [Nat.mod_one] using toNat_and_top_low op (k := 0) (by decide)

theorem toNat_and_F00F : (op &&& 0xF00F).toNat = op.toNat / 4096 * 4096 + op.toNat % 16 :=
  toNat_and_top_low op (k := 4) (by decide)

theorem toNat_and_F0FF : (op &&& 0xF0FF).toNat = op.toNat / 4096 * 4096 + op.toNat % 256 :=
  toNat_and_top_low op (k := 8) (by decide)

theorem toNat_and_FFFF : (op &&& 0xFFFF).toNat = op.toNat := by
  rw [show op &&& 0xFFFF = op from BitVec.and_allOnes]

end Fields

/-- Settles O9: each mask of low ones takes a remainder, and the overlaps are arithmetic. -/
theorem fieldsAreTheMaskedSlices : Obligations.FieldsAreTheMaskedSlices := by
  intro op
  have hn : (op &&& 0x000F).toNat = op.toNat % 2 ^ 4 := toNat_and_low_ones op rfl (by decide)
  have hnnn : (op &&& 0x0FFF).toNat = op.toNat % 2 ^ 12 := toNat_and_low_ones op rfl (by decide)
  have hkk : (op &&& 0x00FF).toNat = op.toNat % 2 ^ 8 := toNat_and_low_ones op rfl (by decide)
  have hx : ((op &&& 0x0F00) >>> 8).toNat = op.toNat / 2 ^ 8 % 2 ^ 4 := by
    rw [BitVec.ushiftRight_and_distrib, ← Nat.shiftRight_eq_div_pow, ← BitVec.toNat_ushiftRight]
    exact toNat_and_low_ones (op >>> 8) (k := 4) rfl (by decide)
  have hy : ((op &&& 0x00F0) >>> 4).toNat = op.toNat / 2 ^ 4 % 2 ^ 4 := by
    rw [BitVec.ushiftRight_and_distrib, ← Nat.shiftRight_eq_div_pow, ← BitVec.toNat_ushiftRight]
    exact toNat_and_low_ones (op >>> 4) (k := 4) rfl (by decide)
  rw [hn, hnnn, hkk, hx, hy, fieldsOf_n_toNat, fieldsOf_nnn_toNat, fieldsOf_x_toNat, fieldsOf_y_toNat,
    fieldsOf_kk_toNat]
  omega

/-! ### Opcodes that do not decode -/

/-- Settles O11: the rows' tests as equations between numbers. -/
theorem undecodableOpcodesAreTheListedRanges : Obligations.UndecodableOpcodesAreTheListedRanges := by
  intro op
  have hlt := op.isLt
  rw [decodeOpcode_eq_error_iff]
  simp only [opcodeTable, List.cons_append, List.nil_append, List.forall_mem_cons, List.not_mem_nil, false_implies,
    implies_true, and_true, ne_eq, ← BitVec.toNat_inj, toNat_and_FFFF, toNat_and_F000, toNat_and_F00F, toNat_and_F0FF,
    BitVec.reduceToNat]
  constructor
  · intro hnone
    omega
  · intro hrange
    omega

end Sys2Proof

/-! SUPPORT. Encoding and decoding are inverse to each other (30_encoding.md R46, R50; O7, O8): the encoded word selects
its kind's row, and its low twelve bits are the fields of a well-formed instruction. -/

namespace Sys2Proof

open Laws
open Laws.EncodesToRow (row Statement)

/-- The encoded word has, under the mask of its kind's row, the row's match. -/
theorem encode_selects_row : ∀ i, Statement i
  | .cls f => EncodesToRow.cls f
  | .ret f => EncodesToRow.ret f
  | .jp f => EncodesToRow.jp f
  | .call f => EncodesToRow.call f
  | .seVxByte f => EncodesToRow.seVxByte f
  | .sneVxByte f => EncodesToRow.sneVxByte f
  | .seVxVy f => EncodesToRow.seVxVy f
  | .ldVxByte f => EncodesToRow.ldVxByte f
  | .addVxByte f => EncodesToRow.addVxByte f
  | .ldVxVy f => EncodesToRow.ldVxVy f
  | .orVxVy f => EncodesToRow.orVxVy f
  | .andVxVy f => EncodesToRow.andVxVy f
  | .xorVxVy f => EncodesToRow.xorVxVy f
  | .addVxVy f => EncodesToRow.addVxVy f
  | .subVxVy f => EncodesToRow.subVxVy f
  | .shrVxVy f => EncodesToRow.shrVxVy f
  | .subnVxVy f => EncodesToRow.subnVxVy f
  | .shlVxVy f => EncodesToRow.shlVxVy f
  | .sneVxVy f => EncodesToRow.sneVxVy f
  | .ldI f => EncodesToRow.ldI f
  | .jpV0 f => EncodesToRow.jpV0 f
  | .rndVxByte f => EncodesToRow.rndVxByte f
  | .drwVxVy f => EncodesToRow.drwVxVy f
  | .ldVxDt f => EncodesToRow.ldVxDt f
  | .ldDtVx f => EncodesToRow.ldDtVx f
  | .ldStVx f => EncodesToRow.ldStVx f
  | .addIVx f => EncodesToRow.addIVx f

/-! The low twelve bits of each format of R46 are nnn. -/

theorem encodeNnn_low (op : Nibble) (f : Fields) : (encodeNnn op f).toNat % 4096 = f.nnn.toNat := by
  have hword : (encodeNnn op f).toNat = op.toNat * 2 ^ 12 + f.nnn.toNat := toNat_append_eq_add op f.nnn
  omega

theorem encodeXkk_low (op : Nibble) {f : Fields} (h : f.overlap = true) :
    (encodeXkk op f).toNat % 4096 = f.nnn.toNat := by
  have hword : (encodeXkk op f).toNat = (op ++ f.x).toNat * 2 ^ 8 + f.kk.toNat := toNat_append_eq_add (op ++ f.x) f.kk
  obtain ⟨hnnn, -⟩ := f.overlap_iff.mp h
  rw [toNat_append_eq_add] at hword
  omega

theorem encodeX_low {f : Fields} (h : f.overlap = true) : (encodeX f f.kk).toNat % 4096 = f.nnn.toNat :=
  encodeXkk_low 0xF h

theorem encodeXyn_low (op : Nibble) {f : Fields} (h : f.overlap = true) :
    (encodeXyn op f f.n).toNat % 4096 = f.nnn.toNat := by
  have hword : (encodeXyn op f f.n).toNat = (op ++ f.x ++ f.y).toNat * 2 ^ 4 + f.n.toNat :=
    toNat_append_eq_add (op ++ f.x ++ f.y) f.n
  obtain ⟨hnnn, hkk⟩ := f.overlap_iff.mp h
  rw [toNat_append_eq_add, toNat_append_eq_add] at hword
  omega

/-- The low twelve bits of the encoded word of a well-formed instruction are its nnn, whatever its format. -/
theorem encode_low {i : Instr} (h : i.wellFormed = true) : (encode i).toNat % 4096 = i.fields.nnn.toNat := by
  rw [Instr.wellFormed, Bool.and_eq_true] at h
  obtain ⟨hover, hfixed⟩ := h
  cases i with
  | cls f | ret f =>
    have hnnn : f.nnn = _ := beq_iff_eq.mp hfixed
    simp [encode, encodeFix, Instr.fields, hnnn]
  | jp f | call f | ldI f | jpV0 f => exact encodeNnn_low _ f
  | seVxByte f | sneVxByte f | ldVxByte f | addVxByte f | rndVxByte f => exact encodeXkk_low _ hover
  | seVxVy f | sneVxVy f | drwVxVy f => exact encodeXyn_low _ hover
  | ldVxVy f | orVxVy f | andVxVy f | xorVxVy f | addVxVy f | subVxVy f | shrVxVy f | subnVxVy f | shlVxVy f =>
    have hn : f.n = _ := beq_iff_eq.mp hfixed
    rw [encode, ← hn]
    exact encodeXyn_low _ hover
  | ldVxDt f | ldDtVx f | ldStVx f | addIVx f =>
    have hkk : f.kk = _ := beq_iff_eq.mp hfixed
    rw [encode, ← hkk]
    exact encodeX_low hover

theorem fieldsOf_encode {i : Instr} (h : i.wellFormed = true) : fieldsOf (encode i) = i.fields := by
  have hnnn : (fieldsOf (encode i)).nnn = i.fields.nnn :=
    BitVec.eq_of_toNat_eq (by rw [fieldsOf_nnn_toNat, encode_low h])
  rw [Instr.wellFormed, Bool.and_eq_true] at h
  exact Fields.eq_of_nnn_eq (fieldsOf_overlap _) h.1 hnnn

/-- Settles O7: the encoded word selects the row of its kind and carries the instruction's fields. -/
theorem decodeOfEncodeIsTheInstruction : Obligations.DecodeOfEncodeIsTheInstruction := fun i h =>
  decodeOpcode_eq_ok_iff.mpr ⟨(fieldsOf_encode h).symm, encode_selects_row i⟩

/-- The low nibble of an opcode that a row of the 0x8 family selects (R52). -/
theorem fieldsOf_n_of_masked {op : Opcode} {low : Nibble} (h : op &&& 0xF00F = 0x8#4 ++ 0x0#4 ++ 0x0#4 ++ low) :
    (fieldsOf op).n = low := by
  have := congrArg BitVec.toNat h
  rw [toNat_and_F00F, toNat_append_eq_add] at this
  exact BitVec.eq_of_toNat_eq (by rw [fieldsOf_n_toNat]; omega)

/-- The low byte of an opcode that a row of the 0xF family selects. -/
theorem fieldsOf_kk_of_masked {op : Opcode} {low : Byte} (h : op &&& 0xF0FF = 0xF#4 ++ 0x0#4 ++ low) :
    (fieldsOf op).kk = low := by
  have := congrArg BitVec.toNat h
  rw [toNat_and_F0FF, toNat_append_eq_add] at this
  exact BitVec.eq_of_toNat_eq (by rw [fieldsOf_kk_toNat]; omega)

/-- What decodes has the bits that its kind fixes. -/
theorem fixedBits_of_decode {op : Opcode} {i : Instr} (h : decodeOpcode op = .ok i) : i.fixedBits = true := by
  obtain ⟨hfields, hrow⟩ := decodeOpcode_eq_ok_iff.mp h
  cases i with
  | cls f | ret f =>
    obtain rfl : f = fieldsOf op := hfields
    have hop : op = _ := BitVec.and_allOnes.symm.trans hrow
    rw [hop]
    rfl
  | ldVxVy f | orVxVy f | andVxVy f | xorVxVy f | addVxVy f | subVxVy f | shrVxVy f | subnVxVy f | shlVxVy f =>
    obtain rfl : f = fieldsOf op := hfields
    exact beq_iff_eq.mpr (fieldsOf_n_of_masked hrow)
  | ldVxDt f | ldDtVx f | ldStVx f | addIVx f =>
    obtain rfl : f = fieldsOf op := hfields
    exact beq_iff_eq.mpr (fieldsOf_kk_of_masked hrow)
  | _ => rfl

theorem wellFormed_of_decode {op : Opcode} {i : Instr} (h : decodeOpcode op = .ok i) : i.wellFormed = true := by
  obtain ⟨hfields, -⟩ := decodeOpcode_eq_ok_iff.mp h
  rw [Instr.wellFormed, Bool.and_eq_true, hfields]
  exact ⟨fieldsOf_overlap op, fixedBits_of_decode h⟩

/-- Every mask of the opcode map covers the top nibble. -/
theorem row_mask_and_top (i : Instr) : (row i).1 &&& 0xF000 = 0xF000 := by
  have covers : ∀ r ∈ opcodeTable, r.mask &&& 0xF000 = 0xF000 := by decide
  obtain ⟨r, hr, hrow, -⟩ := exists_row i
  rw [hrow]
  exact covers r hr

/-- Two opcodes that one row selects have the same top nibble. -/
theorem top_eq_of_row {v w : Opcode} {i : Instr} (hv : v &&& (row i).1 = (row i).2) (hw : w &&& (row i).1 = (row i).2) :
    v.toNat / 4096 = w.toNat / 4096 := by
  have htop : v &&& 0xF000 = w &&& 0xF000 := by
    rw [← row_mask_and_top i, ← BitVec.and_assoc, ← BitVec.and_assoc, hv, hw]
  have heq : (v &&& 0xF000).toNat = (w &&& 0xF000).toNat := by rw [htop]
  rw [toNat_and_F000, toNat_and_F000] at heq
  exact Nat.eq_of_mul_eq_mul_right (by decide) heq

/-- What decodes encodes back: the top nibble by its row, the rest by its fields. -/
theorem encode_of_decode {op : Opcode} {i : Instr} (h : decodeOpcode op = .ok i) : encode i = op := by
  obtain ⟨hfields, hrow⟩ := decodeOpcode_eq_ok_iff.mp h
  have hlow : (encode i).toNat % 4096 = op.toNat % 4096 := by
    rw [encode_low (wellFormed_of_decode h), hfields, fieldsOf_nnn_toNat]
  have htop : (encode i).toNat / 4096 = op.toNat / 4096 := top_eq_of_row (encode_selects_row i) hrow
  exact BitVec.eq_of_toNat_eq (by omega)

/-- Settles O8. -/
theorem decodedInstructionEncodesBack : Obligations.DecodedInstructionEncodesBack := fun _ _ h =>
  ⟨wellFormed_of_decode h, (decodeOpcode_eq_ok_iff.mp h).1, encode_of_decode h⟩

end Sys2Proof

/-! SUPPORT. The assembler on a disassembled line (30_encoding.md R60; O14). -/

namespace Sys2Proof

open Laws.EncodesToRow (row)
open Machine (assemble disassemble lostBits)

/-- The kinds whose line does not encode bits 3:0: `5xy?` and `9xy?`. -/
def Instr.ignoresLow : Instr → Bool
  | .seVxVy _ | .sneVxVy _ => true
  | _ => false

/-- The line of any other kind holds all that its kind's encoding does. -/
theorem assemble_disassemble_eq_encode {i : Instr} (h : i.ignoresLow = false) :
    assemble (disassemble i) = some (encode i) := by
  cases i with
  | seVxVy f | sneVxVy f => cases h
  | _ => rfl

theorem disassemble_comment (i : Instr) :
    (disassemble i).comment = if i.ignoresLow then lostBits i.fields.n else none := by
  cases i <;> rfl

/-- R60 clears bits 3:0. -/
theorem encodeXyn_and_FFF0 (op : Nibble) (f : Fields) (low : Nibble) :
    encodeXyn op f low &&& 0xFFF0 = encodeXyn op f 0 := by
  change (op ++ f.x ++ f.y ++ low : Opcode) &&&
    (BitVec.allOnes 4 ++ BitVec.allOnes 4 ++ BitVec.allOnes 4 ++ 0#4 : Opcode) = _
  simp only [BitVec.and_append, BitVec.and_allOnes, BitVec.and_zero]
  rfl

theorem assemble_disassemble_of_ignoresLow {i : Instr} (h : i.ignoresLow = true) :
    assemble (disassemble i) = some (encode i &&& 0xFFF0) := by
  cases i with
  | seVxVy f => exact congrArg some (encodeXyn_and_FFF0 0x5 f f.n).symm
  | sneVxVy f => exact congrArg some (encodeXyn_and_FFF0 0x9 f f.n).symm
  | _ => cases h

/-- The two kinds are told by the top nibble, which every row's match holds: a check of the 27 matches. -/
theorem ignoresLow_iff {op : Opcode} {i : Instr} (h : op &&& (row i).1 = (row i).2) :
    i.ignoresLow = true ↔ op &&& 0xF000 = 0x5000 ∨ op &&& 0xF000 = 0x9000 := by
  have htop : op &&& 0xF000 = (row i).2 &&& 0xF000 := by rw [← h, BitVec.and_assoc, row_mask_and_top]
  rw [htop]
  cases i <;> simp only [Instr.ignoresLow, row] <;> decide

theorem lostBits_fieldsOf (op : Opcode) :
    lostBits (fieldsOf op).n = if op &&& 0x000F ≠ 0 then some (fieldsOf op).n else none := by
  have hzero : (fieldsOf op).n = 0 ↔ op &&& 0x000F = 0 := by
    obtain ⟨hn, -⟩ := fieldsAreTheMaskedSlices op
    rw [← BitVec.toNat_inj, ← BitVec.toNat_inj, hn]
    rfl
  simp only [lostBits, hzero, ne_eq, ite_not]

/-- Settles O14: the line encodes what the instruction does, but for the two kinds that ignore bits 3:0. -/
theorem assemblerEncodesTheDisassembledLine : Obligations.AssemblerEncodesTheDisassembledLine := by
  intro op i h
  obtain ⟨hfields, hrow⟩ := decodeOpcode_eq_ok_iff.mp h
  simp only [← ignoresLow_iff hrow, disassemble_comment, hfields, lostBits_fieldsOf]
  cases hlow : i.ignoresLow with
  | true => simp [assemble_disassemble_of_ignoresLow hlow, encode_of_decode h]
  | false => simp [assemble_disassemble_eq_encode hlow, encode_of_decode h]

end Sys2Proof

/-! SUPPORT. The fields that a kind does not use (30_encoding.md R55; O28). -/

namespace Sys2Proof.Machine

/-- JP_V0 uses x and kk only where it falls through (R76). -/
theorem exec_jpV0_congr {f g : Fields} {s : State} (hnnn : f.nnn = g.nnn)
    (hxkk : s.params.jpV0Fallthrough = true → f.x = g.x ∧ f.kk = g.kk) : exec (.jpV0 f) s = exec (.jpV0 g) s := by
  have hv : s.v0Plus f = s.v0Plus g := by simp only [State.v0Plus, absolute, hnnn]
  cases hp : s.params.jpV0Fallthrough with
  | false => rw [exec_jpV0_of_no_fallthrough hp, exec_jpV0_of_no_fallthrough hp, hv]
  | true =>
    obtain ⟨hx, hkk⟩ := hxkk hp
    rw [exec_jpV0_of_fallthrough hp, exec_jpV0_of_fallthrough hp, hv, hx, hkk]

theorem exec_addIVx_congr {f g : Fields} (s : State) (hx : f.x = g.x) : exec (.addIVx f) s = exec (.addIVx g) s := by
  have hvx : s.vx f = s.vx g := by simp only [State.vx, hx]
  have hsum : s.iPlusVx f = s.iPlusVx g := by simp only [State.iPlusVx, hvx]
  by_cases hbig : s.iPlusVx f > 0xFFFF
  · rw [exec_addIVx_of_overflow hbig, exec_addIVx_of_overflow (hsum ▸ hbig), hvx]
  · rw [exec_addIVx_of_fits hbig, exec_addIVx_of_fits (hsum ▸ hbig), hsum]

theorem exec_drwVxVy_congr {f g : Fields} (s : State) (hx : f.x = g.x) (hy : f.y = g.y) (hn : f.n = g.n) :
    exec (.drwVxVy f) s = exec (.drwVxVy g) s := by
  have hin : s.spriteInMemory f = s.spriteInMemory g := by simp only [State.spriteInMemory, hn]
  have hdrawn : s.spriteDrawn f = s.spriteDrawn g := by
    simp only [State.spriteDrawn, State.startX, State.startY, State.vx, State.vy, hx, hy, hn]
  by_cases hmem : s.spriteInMemory f = true
  · rw [exec_drwVxVy_of_in_memory hmem, exec_drwVxVy_of_in_memory (hin ▸ hmem), hdrawn]
  · rw [exec_drwVxVy_of_out_of_range hmem, exec_drwVxVy_of_out_of_range (hin ▸ hmem), hn]

/-- Settles O28: one case for each pair of kinds that `sameOperands` lists, in its order; each meaning is a function of
the operands listed there. -/
theorem unusedFieldsAreIgnored : Obligations.UnusedFieldsAreIgnored := by
  intro i j s h
  unfold sameOperands at h
  split at h
  -- CLS and RET have no operand
  case h_1 | h_2 => rfl
  -- nnn
  case h_3 | h_4 | h_5 => simp only [exec, execJp, execCall, execLdI, absolute, h]
  -- JP_V0
  case h_6 => exact exec_jpV0_congr h.1 h.2
  -- x and kk
  case h_7 | h_8 | h_9 | h_10 | h_11 =>
    obtain ⟨hx, hkk⟩ := h
    simp only [exec, execSeVxByte, execSneVxByte, execLdVxByte, execAddVxByte, execRndVxByte, State.vx, hx, hkk]
  -- x and y
  case h_12 | h_13 | h_14 | h_15 | h_16 | h_17 | h_18 | h_19 | h_20 =>
    obtain ⟨hx, hy⟩ := h
    simp only [exec, execSeVxVy, execSneVxVy, execLdVxVy, execOrVxVy, execAndVxVy, execXorVxVy, execAddVxVy,
      execSubVxVy, execSubnVxVy, State.vx, State.vy, hx, hy]
  -- SHR and SHL: x alone
  case h_21 | h_22 => simp only [exec, execShrVxVy, execShlVxVy, State.vx, h]
  -- DRW
  case h_23 =>
    obtain ⟨hx, hy, hn⟩ := h
    exact exec_drwVxVy_congr s hx hy hn
  -- the timers: x
  case h_24 | h_25 | h_26 => simp only [exec, execLdVxDt, execLdDtVx, execLdStVx, State.vx, h]
  -- ADD_I_Vx
  case h_27 => exact exec_addIVx_congr s h
  -- two different kinds
  case h_28 => exact h.elim

end Sys2Proof.Machine

/-! SUPPORT. What a step of a running machine does, from the cycle's cases: fetch (O16), undecodable opcode (O17), the
decoded instruction and the advance (O15). Where pc stands after it (O21), and a return to its call (O22). -/

namespace Sys2Proof.Machine

/-! ### The advance in the spec's arithmetic (40_step_cycle.md R69) -/

theorem State.advance_eq (s : State) : s.advance = { s with
    pc := BitVec.ofNat 16 ((s.pc.toNat + 2 + (if s.skip then 2 else 0)) % 65536), skip := false } := by
  have hpc : s.pc + (if s.skip then 4 else 2) =
      BitVec.ofNat 16 ((s.pc.toNat + 2 + (if s.skip then 2 else 0)) % 65536) := by
    split <;> bv_omega
  rw [State.advance, hpc]

theorem absolute_add_two (f : Fields) : absolute f + 2 = BitVec.ofNat 16 (f.nnn.toNat + 2) := by
  simp [absolute, BitVec.ofNat_add]

theorem State.v0Plus_add_two (s : State) (f : Fields) :
    s.v0Plus f + 2 = BitVec.ofNat 16 ((s.getV 0x0#4).toNat + f.nnn.toNat + 2) := by
  simp [State.v0Plus, absolute, BitVec.ofNat_add]

/-! ### A step of a machine that stands at an instruction -/

variable {s t u : State} {i : Instr}

/-- The step ends with what the Executor left, advanced where it raised nothing (R70). -/
theorem step_of_exec (hi : s.atInstr i) (hx : exec i s.clearSkip = .next u) : step s = .next u.afterExecute := by
  rw [step, cycle_of_decoded hi, hx]

theorem step_of_exec_running (hi : s.atInstr i) (hx : exec i s.clearSkip = .next u) (hu : u.status = .running) :
    step s = .next u.advance := by
  rw [step_of_exec hi hx, State.afterExecute_of_running hu]

/-- A step that raised nothing is the advance of what the Executor left, and the Executor raised nothing (R67). -/
theorem exec_of_step_running (hi : s.atInstr i) (h : step s = .next t) (ht : t.status = .running) :
    ∃ u, exec i s.clearSkip = .next u ∧ u.status = .running ∧ t = u.advance := by
  obtain ⟨u, hx, -⟩ := exec_writes i s.clearSkip
  obtain rfl : u.afterExecute = t := by simpa [step_of_exec hi hx] using h
  rcases u.afterExecute_cases with ⟨hu, heq⟩ | ⟨e, hu, heq⟩
  · exact ⟨u, hx, hu, heq⟩
  · simp [heq, hu] at ht

/-- Settles O15. -/
theorem stepRunsTheDecodedInstruction : Obligations.StepRunsTheDecodedInstruction := by
  intro s i hi
  obtain ⟨u, hx, -⟩ := exec_writes i s.clearSkip
  refine ⟨u, hx, fun hu => ?_, fun hu => ?_⟩
  · rw [step_of_exec_running hi hx hu, State.advance_eq]
  · rcases u.afterExecute_cases with ⟨hrun, -⟩ | ⟨-, -, heq⟩
    · exact absurd hrun hu
    · rw [step_of_exec hi hx, heq]

/-- Settles O16. -/
theorem fetchIsBigEndianAndBounded : Obligations.FetchIsBigEndianAndBounded := fun _ hr =>
  ⟨fun hout => cycle_of_not_fetchable hr (Nat.not_le.mpr hout), fun hin => State.fetch_of_fetchable hin⟩

/-- Settles O17. -/
theorem undecodableOpcodeFaultsInPlace : Obligations.UndecodableOpcodeFaultsInPlace := fun _ _ hr hf hd =>
  cycle_of_undecodable hr hf hd

/-! ### The advance after each kind of meaning (R69, R71) -/

theorem State.advance_pc_of_not_skip (h : s.skip = false) : s.advance.pc = s.pc + 2 := by
  simp [h]

/-- A skip is followed by an advance of 4 where its condition holds and of 2 where it does not (R68). -/
theorem State.advance_pc_skipIf (s : State) (c : Bool) :
    (s.clearSkip.skipIf c).advance.pc = if c then s.pc + 4 else s.pc + 2 := by
  cases c <;> simp

/-- A meaning that writes neither pc nor the skip request is followed by an advance of 2. -/
theorem Writes.advance_pc {may : List Part} (hw : Writes may s.clearSkip u) (hpc : .pc ∉ may) (hskip : .skip ∉ may) :
    u.advance.pc = s.pc + 2 := by
  have keptPc : u.pc = s.pc := hw.frame.1 .pc hpc
  have noSkip : u.skip = false := hw.frame.1 .skip hskip
  rw [State.advance_pc_of_not_skip noSkip, keptPc]

/-- A CALL that raised nothing had a free slot (41_control_flow.md R75). -/
theorem sp_ne_max_of_exec_call {f : Fields} (hx : exec (.call f) s = .next u) (hu : u.status = .running) :
    s.sp ≠ 15 := by
  intro hsp
  rw [exec_call_of_sp_eq_max hsp] at hx
  cases hx
  simp at hu

/-- A RET that raised nothing had a slot to return through (R73). -/
theorem sp_ne_zero_of_exec_ret {f : Fields} (hx : exec (.ret f) s = .next u) (hu : u.status = .running) :
    s.sp ≠ 0 := by
  intro hsp
  rw [exec_ret_of_sp_eq_zero hsp] at hx
  cases hx
  simp at hu

/-- JP_V0 jumps whether or not it falls through (R76). -/
theorem exec_jpV0_pc_skip {f : Fields} (hx : exec (.jpV0 f) s = .next u) : u.pc = s.v0Plus f ∧ u.skip = s.skip := by
  cases hp : s.params.jpV0Fallthrough with
  | false =>
    rw [exec_jpV0_of_no_fallthrough hp] at hx
    cases hx
    exact ⟨rfl, rfl⟩
  | true =>
    rw [exec_jpV0_of_fallthrough hp] at hx
    cases hx
    exact ⟨rfl, rfl⟩

/-- Settles O21: the four control transfers and the four skips by their meanings, every other kind by its frame. -/
theorem pcAfterEachStep : Obligations.PcAfterEachStep := by
  intro s t i hi h ht
  obtain ⟨u, hx, hu, rfl⟩ := exec_of_step_running hi h ht
  cases i with
  | jp f =>
    cases hx
    exact (State.advance_pc_of_not_skip rfl).trans (absolute_add_two f)
  | call f =>
    rw [exec_call_of_sp_ne_max (sp_ne_max_of_exec_call hx hu)] at hx
    cases hx
    exact (State.advance_pc_of_not_skip rfl).trans (absolute_add_two f)
  | ret f =>
    rw [exec_ret_of_sp_ne_zero (sp_ne_zero_of_exec_ret hx hu)] at hx
    cases hx
    exact State.advance_pc_of_not_skip rfl
  | jpV0 f =>
    obtain ⟨hpc, hskip⟩ := exec_jpV0_pc_skip hx
    rw [State.advance_pc_of_not_skip hskip, hpc]
    exact s.v0Plus_add_two f
  | seVxByte f | sneVxByte f | seVxVy f | sneVxVy f =>
    cases hx
    exact (State.advance_pc_skipIf s _).trans (by simp [State.vx, State.vy])
  | _ => exact (Writes.of_exec hx).advance_pc (by simp [mayWrite]) (by simp [mayWrite])

/-! ### A call and its return (41_control_flow.md R73, R75) -/

theorem step_call {f : Fields} (hi : s.atInstr (.call f)) (hsp : s.sp ≠ 15) :
    step s = .next (((s.clearSkip.setSp (s.sp + 1)).setSlot (s.sp + 1) s.pc).setPc (absolute f)).advance :=
  step_of_exec_running hi (exec_call_of_sp_ne_max (s := s.clearSkip) hsp) hi.1

theorem step_ret {f : Fields} (hi : s.atInstr (.ret f)) (hsp : s.sp ≠ 0) :
    step s = .next ((s.clearSkip.setPc (s.slot s.sp)).setSp (s.sp - 1)).advance :=
  step_of_exec_running hi (exec_ret_of_sp_ne_zero (s := s.clearSkip) hsp) hi.1

/-- The next stack pointer as a number, where there is a next one (10_state.md R20). -/
theorem sp_add_one_val {k : Fin 16} (h : k ≠ 15) : (k + 1).val = k.val + 1 := by
  revert k; decide

/-- Settles O22: the slot that the CALL wrote, at the SP it left, is the one the RET reads. -/
theorem returnResumesAfterItsCall : Obligations.ReturnResumesAfterItsCall := by
  intro s t u f g hcall hs h hret hsp hslot
  obtain rfl : _ = t := by simpa [step_call hcall hs] using h
  have hu : u.sp = s.sp + 1 := hsp
  have pushed : u.slot u.sp = s.pc := by simpa [hu] using hslot
  have hreturns := step_ret hret (hu ▸ sp_add_one_ne_zero hs)
  refine ⟨?_, sp_add_one_val hs, _, hreturns, hret.1, ?_, ?_, rfl⟩
  · have hnnn := f.nnn.isLt
    rw [pcAfterEachStep s _ _ hcall h hcall.1, BitVec.toNat_ofNat]
    omega
  · rw [pcAfterEachStep u _ _ hret hreturns hret.1, pushed]
  · simp [hu]

end Sys2Proof.Machine

/-! SUPPORT. The control transfers (41_control_flow.md): RET (O29), JP (O30), CALL (O31), JP_V0 (O32), each from its
meaning's equation per branch and the frame of its chain of writes. -/

namespace Sys2Proof.Machine

open Laws.EncodesToRow (row)

/-- The opcodes of a kind's row decode to the kind (30_encoding.md R50). -/
theorem selects_of_row {make : Fields → Instr} {mask pat : Opcode}
    (h : ∀ f, (make f).fields = f ∧ row (make f) = (mask, pat)) : Selects mask pat make := fun op hop => by
  obtain ⟨hfields, hrow⟩ := h (fieldsOf op)
  rw [decodeOpcode_eq_ok_iff, hrow]
  exact ⟨hfields, hop⟩

/-! ### The numbers that pc and SP are set to -/

theorem absolute_toNat (f : Fields) : (absolute f).toNat = f.nnn.toNat :=
  BitVec.toNat_setWidth_of_le (by decide)

/-- The jump of JP_V0 is in full precision: the sum is below 65536 (R76). -/
theorem State.v0Plus_toNat (s : State) (f : Fields) :
    (s.v0Plus f).toNat = (s.getV 0x0#4).toNat + f.nnn.toNat := by
  have hv := (s.getV 0x0#4).isLt
  have hnnn := f.nnn.isLt
  rw [State.v0Plus, BitVec.toNat_add, absolute_toNat, BitVec.toNat_setWidth]
  omega

/-- The previous stack pointer as a number, where there is a previous one (10_state.md R20). -/
theorem sp_sub_one_val {k : Fin 16} (h : k ≠ 0) : (k - 1).val = k.val - 1 := by
  revert k; decide

/-! ### What a control transfer writes -/

theorem frame_return (s : State) (w : Word) (k : Fin 16) : Frame [.pc, .sp] s ((s.setPc w).setSp k) :=
  ((writes_setPc s w).trans (writes_setSp _ k)).frame

theorem frame_call (s : State) (k : Fin 16) (w target : Word) :
    Frame [.pc, .sp, .slot k] s (((s.setSp k).setSlot k w).setPc target) :=
  ((((writes_setSp s k).trans (writes_setSlot _ k w)).trans (writes_setPc _ target)).mono (by simp)).frame

theorem frame_jump_randomInto (s : State) (w : Word) (x : Nibble) (kk : Byte) :
    Frame [.pc, .v x, .draws] s ((s.setPc w).randomInto x kk) :=
  ((writes_setPc s w).trans (writes_randomInto _ x kk)).frame

/-! ### The four statements -/

/-- Settles O29: the two branches of RET. -/
theorem retReturnsThroughTheStack : Obligations.RetReturnsThroughTheStack := by
  refine ⟨selects_of_row fun _ => ⟨rfl, rfl⟩, fun f s => ⟨fun hempty => ?_, fun hsp => ?_⟩⟩
  · exact exec_ret_of_sp_eq_zero hempty
  · exact ⟨_, exec_ret_of_sp_ne_zero hsp, rfl, sp_sub_one_val hsp, frame_return s _ _⟩

/-- Settles O31: the two branches of CALL; the slot it writes is the one at the SP it leaves. -/
theorem callPushesItsOwnAddress : Obligations.CallPushesItsOwnAddress := by
  refine ⟨selects_of_row fun _ => ⟨rfl, rfl⟩, fun f s => ⟨fun hfull => ?_, fun hsp => ?_⟩⟩
  · exact exec_call_of_sp_eq_max hfull
  · exact ⟨_, exec_call_of_sp_ne_max hsp, sp_add_one_val hsp, by simp, absolute_toNat f, frame_call s _ _ _⟩

/-- Settles O32: the two values of the parameter. The jump reads V0 in the state before either write. -/
theorem jpV0JumpsAndMayFallThrough : Obligations.JpV0JumpsAndMayFallThrough := by
  refine ⟨selects_of_row fun _ => ⟨rfl, rfl⟩, fun f s => ?_⟩
  cases hp : s.params.jpV0Fallthrough with
  | false =>
    exact ⟨_, exec_jpV0_of_no_fallthrough hp, s.v0Plus_toNat f, fun _ => (writes_setPc s _).frame, by simp⟩
  | true =>
    exact ⟨_, exec_jpV0_of_fallthrough hp, s.v0Plus_toNat f, by simp, fun _ =>
      ⟨(State.getV_randomInto _ f.x f.x f.kk).trans (if_pos rfl), rfl, frame_jump_randomInto s _ f.x f.kk⟩⟩

/-- JP raises nothing, so its step ends with the advance (40_step_cycle.md R69). -/
theorem step_jp {s : State} {f : Fields} (hi : s.atInstr (.jp f)) :
    step s = .next (s.clearSkip.setPc (absolute f)).advance :=
  step_of_exec_running hi rfl hi.1

/-- Settles O30. -/
theorem jpSetsPcToItsAddress : Obligations.JpSetsPcToItsAddress := by
  refine ⟨selects_of_row fun _ => ⟨rfl, rfl⟩, fun f s =>
    ⟨_, rfl, absolute_toNat f, (writes_setPc s _).frame, fun hi => ?_⟩⟩
  rw [step_jp hi, ← absolute_add_two]
  rfl

end Sys2Proof.Machine

/-! SUPPORT. The four skips (42_skips.md, O33): all are `skipIf` of their condition, so what the request is, what it
leaves unchanged and where the step ends are each said once, for any instruction whose meaning is a `skipIf`. -/

namespace Sys2Proof.Machine

variable {s : State} {i : Instr} {c : Bool} {P : Prop} [Decidable P]

/-- A skip sets the request where its condition holds, leaves it otherwise, and writes nothing else (R77 to R80). -/
theorem exec_requests_skip (hx : exec i s = .next (s.skipIf c)) (hc : c = true ↔ P) :
    ∃ t, exec i s = .next t ∧ Frame [.skip] s t ∧ t.skip = (if P then true else s.skip) := by
  refine ⟨_, hx, (writes_skipIf s c).frame, ?_⟩
  cases c <;> simp [← hc]

/-- The advance consumes the request of a skip, and apart from it only pc is written (R68, R69). -/
theorem State.advance_skipIf (s : State) (c : Bool) : (s.clearSkip.skipIf c).advance =
    { s with pc := if c then s.pc + 4 else s.pc + 2, skip := false } := by
  cases c <;> rfl

/-- A skip raises nothing, so its step ends with the advance: by 4 where the condition holds, by 2 elsewhere (R71). -/
theorem step_skip (hi : s.atInstr i) (hx : exec i s.clearSkip = .next (s.clearSkip.skipIf c)) (hc : c = true ↔ P) :
    step s = .next { s with pc := if P then s.pc + 4 else s.pc + 2, skip := false } := by
  have hrun : (s.clearSkip.skipIf c).status = .running := by simpa using hi.1
  rw [step_of_exec_running hi hx hrun, State.advance_skipIf]
  simp only [hc]

/-- Settles O33: the conditions of the four skips are equality and inequality of the two bytes they compare. -/
theorem skipsRequestTheSkipOnTheirCondition : Obligations.SkipsRequestTheSkipOnTheirCondition := by
  refine ⟨selects_of_row fun _ => ⟨rfl, rfl⟩, selects_of_row fun _ => ⟨rfl, rfl⟩,
    selects_of_row fun _ => ⟨rfl, rfl⟩, selects_of_row fun _ => ⟨rfl, rfl⟩, fun f s => ⟨?_, ?_, ?_, ?_, ?_⟩⟩
  · exact exec_requests_skip rfl beq_iff_eq
  · exact exec_requests_skip rfl bne_iff_ne
  · exact exec_requests_skip rfl beq_iff_eq
  · exact exec_requests_skip rfl bne_iff_ne
  · exact ⟨fun hi => step_skip hi rfl beq_iff_eq, fun hi => step_skip hi rfl bne_iff_ne,
      fun hi => step_skip hi rfl beq_iff_eq, fun hi => step_skip hi rfl bne_iff_ne⟩

end Sys2Proof.Machine

/-! SUPPORT. The loads and immediates (43_loads_and_immediates.md): LD_Vx_byte and ADD_Vx_byte (O34), LD_I (O35),
RND_Vx_byte (O36), the delay timer (O37), ADD_I_Vx (O39), each from its meaning and what the operations of the state
write. -/

namespace Sys2Proof.Machine

/-- Settles O34: both write V[x] alone, and an 8-bit sum is reduced modulo 256. -/
theorem immediateLoadAndAdd : Obligations.ImmediateLoadAndAdd := by
  refine ⟨selects_of_row fun _ => ⟨rfl, rfl⟩, selects_of_row fun _ => ⟨rfl, rfl⟩, fun f s => ⟨?_, ?_⟩⟩
  · exact ⟨_, rfl, s.getV_setV_self f.x _, (writes_setV s f.x _).frame⟩
  · refine ⟨_, rfl, ?_, (writes_setV s f.x _).frame⟩
    rw [State.getV_setV_self]
    exact BitVec.toNat_add (s.getV f.x) f.kk

/-- Settles O35: the address is zero-extended. -/
theorem ldILoadsTheAddress : Obligations.LdILoadsTheAddress :=
  ⟨selects_of_row fun _ => ⟨rfl, rfl⟩, fun f s => ⟨_, rfl, absolute_toNat f, (writes_setI s _).frame⟩⟩

/-- Settles O36: the two facts of the mask follow from the value written. -/
theorem rndMasksAFreshByte : Obligations.RndMasksAFreshByte := by
  refine ⟨selects_of_row fun _ => ⟨rfl, rfl⟩, fun f s => ?_⟩
  have drawn : (s.randomInto f.x f.kk).getV f.x = Config.randByte s.draws &&& f.kk :=
    (State.getV_randomInto s f.x f.x f.kk).trans (if_pos rfl)
  refine ⟨_, rfl, drawn, rfl, (writes_randomInto s f.x f.kk).frame, fun hkk => ?_, ?_⟩
  · rw [drawn, hkk]
    exact BitVec.and_zero
  · rw [drawn, BitVec.and_assoc, BitVec.and_not_self]
    exact BitVec.and_zero

/-- Settles O37: each copy is one write. -/
theorem delayTimerCopies : Obligations.DelayTimerCopies := by
  refine ⟨selects_of_row fun _ => ⟨rfl, rfl⟩, selects_of_row fun _ => ⟨rfl, rfl⟩, fun f s => ⟨?_, ?_⟩⟩
  · exact ⟨_, rfl, s.getV_setV_self f.x s.dt, (writes_setV s f.x s.dt).frame⟩
  · exact ⟨_, rfl, rfl, (writes_setDt s (s.vx f)).frame⟩

/-- Settles O39: the two branches of ADD_I_Vx; a sum that does not overflow is not reduced. -/
theorem addIKeepsTheSumOrOverflows : Obligations.AddIKeepsTheSumOrOverflows := by
  refine ⟨selects_of_row fun _ => ⟨rfl, rfl⟩, fun f s => ⟨fun hfits => ?_, fun hbig => ?_⟩⟩
  · have kept : (BitVec.ofNat 16 (s.iPlusVx f)).toNat = s.iPlusVx f := Nat.mod_eq_of_lt (Nat.lt_succ_of_le hfits)
    exact ⟨_, exec_addIVx_of_fits (Nat.not_lt.mpr hfits), kept, (writes_setI s _).frame⟩
  · exact exec_addIVx_of_overflow hbig

end Sys2Proof.Machine

/-! SUPPORT. The sound timer (43_loads_and_immediates.md R87, O38): no kind is listed to read ST (10_state.md R21), so a
machine with another value in ST executes and steps to the same state but for ST. -/

namespace Sys2Proof.Machine

variable {s t : State} {i : Instr}

/-- No kind reads ST, or may leave its old contents by a conditional write (10_state.md R21). -/
theorem st_not_mem_mayRead_mayKeep (s : State) (i : Instr) : .st ∉ mayRead s i ++ mayKeep s i := by
  cases i with
  | jpV0 f => cases h : s.params.jpV0Fallthrough <;> simp [mayRead, mayKeep, h]
  | _ => simp [mayRead, mayKeep]

theorem mayWrite_setSt (s : State) (b : Byte) (i : Instr) : mayWrite (s.setSt b) i = mayWrite s i := by
  cases i <;> rfl

theorem Part.same_setSt {p : Part} (hp : p ≠ .st) (s : State) (b : Byte) : p.same s (s.setSt b) :=
  (writes_setSt s b).frame.1 p (by simpa using hp)

/-- Two states with the same memory and parameters that hold the same in every part but ST differ in ST alone. -/
theorem State.eq_setSt_of_same (h : ∀ p : Part, p ≠ .st → p.same s t) (hmem : t.mem = s.mem)
    (hparams : t.params = s.params) : t = s.setSt t.st := by
  have same (p : Part) (_ : p ≠ .mem) : p.same (s.setSt t.st) t := by
    by_cases hp : p = .st
    · subst hp; rfl
    · exact (Part.same_setSt hp s t.st).symm.trans (h p hp)
  have heq := State.eq_withMem_of_same same hparams
  rwa [hmem] at heq

/-- Execution from another ST ends in the same state but for ST: what the instruction writes does not depend on ST, the
rest by its frame. -/
theorem exec_setSt (h : exec i s = .next t) (b : Byte) :
    ∃ t' c, exec i (s.setSt b) = .next t' ∧ t = t'.setSt c := by
  have agree : Agree (mayRead s i ++ mayKeep s i) s (s.setSt b) :=
    ⟨fun p hp => Part.same_setSt (fun hst => st_not_mem_mayRead_mayKeep s i (hst ▸ hp)) s b, rfl⟩
  obtain ⟨u, t', hu, ht', written⟩ := exec_readsOnly agree
  obtain rfl : u = t := by simpa [hu] using h
  have others (p : Part) (hp : p ≠ .st) : p.same t' u := by
    by_cases hpw : p ∈ mayWrite s i
    · exact (written.1 p hpw).symm
    · have before : p.same s u := (Writes.of_exec hu).frame.1 p hpw
      have after : p.same (s.setSt b) t' := (Writes.of_exec ht').frame.1 p (by rwa [mayWrite_setSt])
      exact ((Part.same_setSt hp s b).trans after).symm.trans before
  have hmem : u.mem = t'.mem := (exec_mem hu).trans (exec_mem ht').symm
  exact ⟨t', u.st, ht', State.eq_setSt_of_same others hmem written.2.symm⟩

theorem State.afterExecute_setSt (s : State) (b : Byte) : (s.setSt b).afterExecute = s.afterExecute.setSt b := by
  rcases s.afterExecute_cases with ⟨hst, heq⟩ | ⟨e, hst, heq⟩
  · rw [heq, State.afterExecute_of_running (s := s.setSt b) hst]
    rfl
  · rw [heq, State.afterExecute_of_faulted (s := s.setSt b) hst]

/-- A step from another ST ends in the same state but for ST: the fetch and the faults do not read it either. -/
theorem step_setSt (h : step s = .next t) (b : Byte) : ∃ t' c, step (s.setSt b) = .next t' ∧ t = t'.setSt c := by
  obtain ⟨hr, ⟨hf, rfl⟩ | ⟨hf, ⟨e, hd⟩, rfl⟩ | ⟨i, u, hi, hx, rfl⟩⟩ := cycle_cases h
  · exact ⟨_, s.st, cycle_of_not_fetchable (s := s.setSt b) hr hf, rfl⟩
  · exact ⟨_, s.st, cycle_of_undecodable (s := s.setSt b) hr hf hd, rfl⟩
  · obtain ⟨u', c, hx', rfl⟩ := exec_setSt hx b
    exact ⟨u'.afterExecute, c, step_of_exec (s := s.setSt b) hi hx', State.afterExecute_setSt u' c⟩

/-- Settles O38: the copy is one write, and a step does not depend on ST. -/
theorem soundTimerIsWrittenAndNeverRead : Obligations.SoundTimerIsWrittenAndNeverRead := by
  refine ⟨selects_of_row fun _ => ⟨rfl, rfl⟩, fun f s => ?_, fun s t b h => ?_⟩
  · exact ⟨_, rfl, rfl, (writes_setSt s (s.vx f)).frame⟩
  · obtain ⟨t', c, hstep, rfl⟩ := step_setSt h b
    exact ⟨t', hstep, rfl⟩

end Sys2Proof.Machine

/-! SUPPORT. The 0x8 family (44_alu.md): the move and the bitwise operations (O40) are one register write each; the
flag-writing kinds (O41 to O43) are all `flagThenResult`, so what they leave in VF and V[x] is said once, from the flag
and the result as numbers. -/

namespace Sys2Proof.Machine

/-! ### The move and the bitwise operations -/

/-- Settles O40: each kind writes V[x] alone, and the bits of a register are those of its number. -/
theorem moveAndLogicWriteOnlyVx : Obligations.MoveAndLogicWriteOnlyVx := by
  refine ⟨selects_of_row fun _ => ⟨rfl, rfl⟩, selects_of_row fun _ => ⟨rfl, rfl⟩,
    selects_of_row fun _ => ⟨rfl, rfl⟩, selects_of_row fun _ => ⟨rfl, rfl⟩, fun f s => ⟨?_, ?_, ?_, ?_⟩⟩
  · exact ⟨_, rfl, s.getV_setV_self f.x _, (writes_setV s f.x _).frame⟩
  · refine ⟨_, rfl, (writes_setV s f.x _).frame, fun k => ?_⟩
    rw [State.getV_setV_self, BitVec.toNat_or, Nat.testBit_or]
    rfl
  · refine ⟨_, rfl, (writes_setV s f.x _).frame, fun k => ?_⟩
    rw [State.getV_setV_self, BitVec.toNat_and, Nat.testBit_and]
    rfl
  · refine ⟨_, rfl, (writes_setV s f.x _).frame, fun k => ?_⟩
    rw [State.getV_setV_self, BitVec.toNat_xor, Nat.testBit_xor]
    rfl

/-! ### The flag-writing kinds -/

variable {s : State} {i : Instr} {x : Nibble} {fl : Byte} {g : State → Byte} {flagNum resultNum : Nat}

/-- What a flag-writing instruction leaves: VF holds the flag and V[x] the result; where V[x] is VF, ALU_VF_DEST says
which of the two it keeps (44_alu.md R89). -/
theorem exec_writes_flag_then_result (hx : exec i s = .next (s.flagThenResult x fl g)) (hflag : fl.toNat = flagNum)
    (hresult : (g (s.setV 0xF#4 fl)).toNat = resultNum) :
    ∃ t, exec i s = .next t ∧ Frame [.v 0xF#4, .v x] s t ∧
      (x ≠ 0xF#4 → (t.getV x).toNat = resultNum ∧ (t.getV 0xF#4).toNat = flagNum) ∧
      (x = 0xF#4 → (t.getV 0xF#4).toNat = if s.params.aluVfDest = .result then resultNum else flagNum) := by
  subst hflag hresult
  refine ⟨_, hx, (writes_flagThenResult s x fl g).frame, fun hne => ⟨?_, ?_⟩, fun hvf => ?_⟩
  · rw [s.flagThenResult_getV_dest fl g hne]
  · rw [s.flagThenResult_getV_flag fl g hne]
  · subst hvf
    rw [State.flagThenResult_getV_vf, apply_ite BitVec.toNat]

/-- An operand read after the flag write: the new flag where it is VF, its old contents elsewhere (R89). -/
theorem State.getV_after_flag_toNat (s : State) (r : Nibble) (hflag : fl.toNat = flagNum) :
    ((s.setV 0xF#4 fl).getV r).toNat = if r = 0xF#4 then flagNum else (s.getV r).toNat := by
  rw [State.getV_setV, apply_ite BitVec.toNat, hflag]

/-- Settles O41: the sum does not read the new VF, so only its two values as numbers are needed. -/
theorem addWritesCarryThenSum : Obligations.AddWritesCarryThenSum :=
  ⟨selects_of_row fun _ => ⟨rfl, rfl⟩, fun f s =>
    exec_writes_flag_then_result rfl (addFlag_toNat _ _) (BitVec.toNat_add (s.getV f.x) (s.getV f.y))⟩

/-- The difference of two bytes, without a negative number. -/
theorem byte_sub_toNat (a b : Byte) : (a - b).toNat = (a.toNat + 256 - b.toNat) % 256 := by
  have hb := b.isLt
  rw [BitVec.toNat_sub]
  omega

/-- The difference of two registers read after the flag write (R95, R97). -/
theorem State.difference_after_flag_toNat (s : State) (p q : Nibble) (hflag : fl.toNat = flagNum) :
    ((s.setV 0xF#4 fl).getV p - (s.setV 0xF#4 fl).getV q).toNat =
      ((if p = 0xF#4 then flagNum else (s.getV p).toNat) + 256 -
        (if q = 0xF#4 then flagNum else (s.getV q).toNat)) % 256 := by
  rw [byte_sub_toNat, s.getV_after_flag_toNat p hflag, s.getV_after_flag_toNat q hflag]

/-- Settles O42: the two kinds differ in which register is the minuend. -/
theorem subtractionsCompareThenSubtract : Obligations.SubtractionsCompareThenSubtract := by
  refine ⟨selects_of_row fun _ => ⟨rfl, rfl⟩, selects_of_row fun _ => ⟨rfl, rfl⟩, fun f s => ⟨?_, ?_⟩⟩
  · have hflag := greaterFlag_toNat (s.getV f.x) (s.getV f.y)
    exact exec_writes_flag_then_result rfl hflag (s.difference_after_flag_toNat f.x f.y hflag)
  · have hflag := greaterFlag_toNat (s.getV f.y) (s.getV f.x)
    exact exec_writes_flag_then_result rfl hflag (s.difference_after_flag_toNat f.y f.x hflag)

theorem byte_shiftRight_one_toNat (a : Byte) : (a >>> 1).toNat = a.toNat / 2 := by
  rw [BitVec.toNat_ushiftRight, Nat.shiftRight_eq_div_pow, Nat.pow_one]

theorem byte_shiftLeft_one_toNat (a : Byte) : (a <<< 1).toNat = a.toNat * 2 % 256 := by
  rw [BitVec.toNat_shiftLeft, Nat.shiftLeft_eq, Nat.pow_one]

/-- Settles O43: the shift is of V[x] as it stands after the flag write. -/
theorem shiftsTakeTheirFlagBit : Obligations.ShiftsTakeTheirFlagBit := by
  refine ⟨selects_of_row fun _ => ⟨rfl, rfl⟩, selects_of_row fun _ => ⟨rfl, rfl⟩, fun f s => ⟨?_, ?_⟩⟩
  · have hflag := shrFlag_toNat (s.getV f.x)
    refine exec_writes_flag_then_result rfl hflag ?_
    rw [← s.getV_after_flag_toNat f.x hflag]
    exact byte_shiftRight_one_toNat _
  · have hflag := shlFlag_toNat (s.getV f.x)
    refine exec_writes_flag_then_result rfl hflag ?_
    rw [← s.getV_after_flag_toNat f.x hflag]
    exact byte_shiftLeft_one_toNat _

end Sys2Proof.Machine

/-! SUPPORT. The display instructions (45_display.md): CLS (O44); DRW (O45), from what its canvas holds in each cell and
when it has collided, in the terms of R103; and a second draw of the same sprite over the first one (O46). -/

namespace Sys2Proof.Machine

/-- Settles O44: the blank display has no other cell. -/
theorem clsUnsetsEveryCell : Obligations.ClsUnsetsEveryCell :=
  ⟨selects_of_row fun _ => ⟨rfl, rfl⟩, fun _ s =>
    ⟨_, rfl, fun idx _ => Display.cell_blank idx, (writes_setDisp s blankDisplay).frame⟩⟩

variable {f g : Fields} {s t u : State}

/-! ### The canvas a draw leaves, in the terms of R103 -/

/-- Each visited cell holds its old bit XOR its sprite bit, and every other cell is as it was (R103). -/
theorem State.spriteDrawn_cell (s : State) (f : Fields) (idx : Nat) :
    (s.spriteDrawn f).disp.cell idx =
      if visited (s.startX f) (s.startY f) f.n.toNat idx then
        .ofBit (xor (s.disp.cell idx).lit (s.spriteBitAt (s.startX f) (s.startY f) idx))
      else s.disp.cell idx := by
  rw [State.spriteDrawn, List.range_eq_range']
  exact drawRows_cell s.mem s.i.toNat (s.startX f) (s.startY f) 0 f.n.toNat ⟨s.disp, false⟩ idx

/-- A draw has collided exactly where some visited cell was lit and met a 1 bit (R103). -/
theorem State.spriteDrawn_collided (s : State) (f : Fields) :
    (s.spriteDrawn f).collided = true ↔ ∃ idx : Nat, idx < 2048 ∧
      visited (s.startX f) (s.startY f) f.n.toNat idx ∧ (s.disp.cell idx).lit = true ∧
      s.spriteBitAt (s.startX f) (s.startY f) idx = true := by
  have rows := drawRows_collided s.mem s.i.toNat (s.startX f) (s.startY f) 0 f.n.toNat ⟨s.disp, false⟩
  rw [State.spriteDrawn, List.range_eq_range', rows]
  constructor
  · rintro (h | ⟨idx, hvis, hlit, hbit⟩)
    · cases h
    · exact ⟨idx, by omega, hvis, hlit, hbit⟩
  · rintro ⟨idx, -, hvis, hlit, hbit⟩
    exact .inr ⟨idx, hvis, hlit, hbit⟩

theorem State.spriteInMemory_iff (s : State) (f : Fields) :
    s.spriteInMemory f = true ↔ f.n.toNat = 0 ∨ s.i.toNat + f.n.toNat - 1 ≤ 0xFFF := by
  rw [State.spriteInMemory, Bool.or_eq_true, decide_eq_true_iff, decide_eq_true_iff]
  exact or_congr_right Nat.lt_succ_iff

theorem flag_eq_one_iff (c : Bool) : flag c = 1 ↔ c = true := by
  cases c <;> decide

/-- Settles O45: VF is written last, so it holds the flag of the canvas. -/
theorem drwXorsTheClippedSprite : Obligations.DrwXorsTheClippedSprite := by
  refine ⟨selects_of_row fun _ => ⟨rfl, rfl⟩, fun f s => ⟨fun hin => ?_, fun hn hout => ?_⟩⟩
  · refine ⟨_, exec_drwVxVy_of_in_memory ((s.spriteInMemory_iff f).mpr hin),
      ((writes_setDisp s _).trans (writes_setV _ 0xF#4 _)).frame, fun idx _ hvis => ?_, fun idx _ hvis => ?_,
      fun hcollision => ?_, fun hnone => ?_⟩
    · exact (s.spriteDrawn_cell f idx).trans (if_pos hvis)
    · exact (s.spriteDrawn_cell f idx).trans (if_neg hvis)
    · rw [State.getV_setV_self, flag_eq_one_iff]
      exact (s.spriteDrawn_collided f).mpr hcollision
    · have hclear : (s.spriteDrawn f).collided = false := by
        refine Bool.eq_false_of_not_eq_true fun hcollided => ?_
        obtain ⟨idx, hidx, hvis, hlit, hbit⟩ := (s.spriteDrawn_collided f).mp hcollided
        exact Bool.false_ne_true ((hnone idx hidx hvis hlit).symm.trans hbit)
      rw [State.getV_setV_self, hclear]
      rfl
  · exact exec_drwVxVy_of_out_of_range (mt (s.spriteInMemory_iff f).mp (by omega))

/-! ### A second draw of the same sprite -/

/-- A draw from the second state is of the same sprite, at the same place, as a draw from the first. -/
structure SameSprite (f g : Fields) (s u : State) : Prop where
  i : u.i = s.i
  mem : u.mem = s.mem
  n : g.n = f.n
  x : u.getV g.x = s.getV f.x
  y : u.getV g.y = s.getV f.y

theorem SameSprite.startX (h : SameSprite f g s u) : u.startX g = s.startX f := by
  simp only [State.startX, State.vx, h.x]

theorem SameSprite.startY (h : SameSprite f g s u) : u.startY g = s.startY f := by
  simp only [State.startY, State.vy, h.y]

theorem SameSprite.spriteInMemory (h : SameSprite f g s u) : u.spriteInMemory g = s.spriteInMemory f := by
  simp only [State.spriteInMemory, h.i, h.n]

theorem SameSprite.spriteBitAt (h : SameSprite f g s u) (x y idx : Nat) :
    u.spriteBitAt x y idx = s.spriteBitAt x y idx := by
  simp only [State.spriteBitAt, h.i, h.mem]

/-- A pixel drawn as its own bit: unset becomes 0, and 0 and 1 stay (10_state.md R23). -/
theorem Pixel.ofBit_lit (p : Pixel) : Pixel.ofBit p.lit = if p = .unset then .zero else p := by
  cases p <;> rfl

/-- The second XOR undoes the first, so a visited cell ends as its own bit (R104). -/
theorem SameSprite.redrawn_cell (h : SameSprite f g s u) (hdisp : u.disp = (s.spriteDrawn f).disp) (idx : Nat) :
    (u.spriteDrawn g).disp.cell idx =
      if visited (s.startX f) (s.startY f) f.n.toNat idx ∧ s.disp.cell idx = .unset then .zero
      else s.disp.cell idx := by
  rw [State.spriteDrawn_cell, hdisp, State.spriteDrawn_cell, h.startX, h.startY, h.n, h.spriteBitAt]
  by_cases hvis : visited (s.startX f) (s.startY f) f.n.toNat idx
  · rw [if_pos hvis, if_pos hvis, Pixel.lit_ofBit, Bool.xor_assoc, Bool.xor_self, Bool.xor_false, Pixel.ofBit_lit]
    exact if_congr (and_iff_right hvis).symm rfl rfl
  · rw [if_neg hvis, if_neg hvis, if_neg fun hand => hvis hand.1]

/-- A 1 bit meets a lit cell in the second draw where the first draw lit it, so where it was not lit before (R104). -/
theorem SameSprite.redrawn_collided (h : SameSprite f g s u) (hdisp : u.disp = (s.spriteDrawn f).disp) :
    (u.spriteDrawn g).collided = true ↔ ∃ idx : Nat, idx < 2048 ∧
      visited (s.startX f) (s.startY f) f.n.toNat idx ∧
      s.spriteBitAt (s.startX f) (s.startY f) idx = true ∧ (s.disp.cell idx).lit = false := by
  rw [State.spriteDrawn_collided, hdisp, h.startX, h.startY, h.n]
  refine exists_congr fun idx => and_congr_right fun _ => and_congr_right fun hvis => ?_
  rw [h.spriteBitAt, and_comm, State.spriteDrawn_cell, if_pos hvis, Pixel.lit_ofBit]
  refine and_congr_right fun hbit => ?_
  rw [hbit, Bool.xor_true, Bool.not_eq_true']

/-- A draw that leaves the machine running did not fault. -/
theorem spriteInMemory_of_exec_running (h : exec (.drwVxVy f) s = .next t) (hrun : t.status = .running) :
    s.spriteInMemory f = true := by
  by_contra hout
  rw [exec_drwVxVy_of_out_of_range hout] at h
  cases h
  cases hrun

/-- Settles O46: the first draw did not fault and wrote neither I nor memory, so the second one is of the same sprite,
over the canvas of the first. -/
theorem drawingTwiceRestoresThePicture : Obligations.DrawingTwiceRestoresThePicture := by
  intro f g s t u hfirst hrun hi hmem hdisp hn hx hy
  have hin := spriteInMemory_of_exec_running hfirst hrun
  obtain rfl : _ = t := by simpa [exec_drwVxVy_of_in_memory hin] using hfirst
  have same : SameSprite f g s u := ⟨hi.symm, hmem, hn, hx, hy⟩
  refine ⟨_, exec_drwVxVy_of_in_memory (same.spriteInMemory.trans hin), fun idx _ => same.redrawn_cell hdisp idx, ?_⟩
  rw [State.getV_setV_self, flag_eq_one_iff]
  exact same.redrawn_collided hdisp

end Sys2Proof.Machine

/-! SUPPORT. Faults and the host's timer move (60_exceptions.md): what the Execute stage raises, said once as a
function of state and instruction. From it: which steps fault (O20), and that a fault is precise (O19). A faulted machine
stays faulted (O18), and who changes the timers (O3). -/

namespace Sys2Proof.Machine

variable {s t u : State} {i : Instr} {e : CoreFault}

/-! ### What the Execute stage raises (R107) -/

/-- The fault that an instruction raises in a state, if it raises one. -/
def State.execFault (s : State) : Instr → Option CoreFault
  | .call _ => if s.sp = 15 then some (.stackOverflow s.pc s.sp) else none
  | .ret _ => if s.sp = 0 then some (.stackUnderflow s.pc) else none
  | .addIVx f => if s.iPlusVx f > 0xFFFF then some (.iOverflow s.pc s.i (s.vx f)) else none
  | .drwVxVy f => if s.spriteInMemory f = true then none else some (.spriteOutOfRange s.pc s.i f.n)
  | _ => none

/-- An instruction that raises a fault records it and does nothing else; one that raises none leaves the status as it
was. -/
theorem exec_fault_cases (hx : exec i s = .next u) :
    (∃ e, s.execFault i = some e ∧ u = s.faultedWith e) ∨ (s.execFault i = none ∧ u.status = s.status) := by
  have hw := Writes.of_exec hx
  have answered {v : State} (hv : exec i s = .next v) : u = v := by simpa [hx] using hv
  have kept {v : State} (hv : exec i s = .next v) (hst : v.status = s.status) : u.status = s.status :=
    answered hv ▸ hst
  cases i with
  | call f =>
    by_cases h : s.sp = 15
    · exact .inl ⟨_, if_pos h, answered (exec_call_of_sp_eq_max h)⟩
    · exact .inr ⟨if_neg h, kept (exec_call_of_sp_ne_max h) rfl⟩
  | ret f =>
    by_cases h : s.sp = 0
    · exact .inl ⟨_, if_pos h, answered (exec_ret_of_sp_eq_zero h)⟩
    · exact .inr ⟨if_neg h, kept (exec_ret_of_sp_ne_zero h) rfl⟩
  | addIVx f =>
    by_cases h : s.iPlusVx f > 0xFFFF
    · exact .inl ⟨_, if_pos h, answered (exec_addIVx_of_overflow h)⟩
    · exact .inr ⟨if_neg h, kept (exec_addIVx_of_fits h) rfl⟩
  | drwVxVy f =>
    by_cases h : s.spriteInMemory f = true
    · exact .inr ⟨if_pos h, kept (exec_drwVxVy_of_in_memory h) rfl⟩
    · exact .inl ⟨_, if_neg h, answered (exec_drwVxVy_of_out_of_range h)⟩
  | jpV0 f => exact .inr ⟨rfl, hw.frame.1 .status (by simp only [mayWrite]; split <;> simp)⟩
  | _ => exact .inr ⟨rfl, hw.frame.1 .status (by simp [mayWrite])⟩

/-- A running machine ends an instruction with a fault exactly where the instruction raises it. -/
theorem exec_faulted_iff (hr : s.status = .running) (hx : exec i s = .next u) :
    u.status = .faulted e ↔ s.execFault i = some e := by
  obtain ⟨e', he', rfl⟩ | ⟨hnone, hu⟩ := exec_fault_cases hx
  · simp [he']
  · simp [hnone, hu, hr]

/-- The list of R107 for the Execute stage. -/
theorem execFault_eq_some_iff : s.execFault i = some e ↔ ∃ f : Fields,
    (i = .call f ∧ s.sp = 15 ∧ e = .stackOverflow s.pc s.sp) ∨
    (i = .ret f ∧ s.sp = 0 ∧ e = .stackUnderflow s.pc) ∨
    (i = .addIVx f ∧ 0xFFFF < s.i.toNat + (s.getV f.x).toNat ∧ e = .iOverflow s.pc s.i (s.getV f.x)) ∨
    (i = .drwVxVy f ∧ 1 ≤ f.n.toNat ∧ 0xFFF < s.i.toNat + f.n.toNat - 1 ∧ e = .spriteOutOfRange s.pc s.i f.n) := by
  cases i with
  | drwVxVy f =>
    have hout : s.spriteInMemory f = false ↔ 1 ≤ f.n.toNat ∧ 0xFFF < s.i.toNat + f.n.toNat - 1 := by
      rw [← Bool.not_eq_true, s.spriteInMemory_iff f]
      omega
    by_cases h : s.spriteInMemory f = false
    · simp [State.execFault, h, hout.mp h, eq_comm (a := e)]
    · simp [State.execFault, h, ← and_assoc, ← hout]
  | _ => simp [State.execFault, State.iPlusVx, State.vx, eq_comm]

/-! ### Faults of a step -/

@[simp] theorem State.afterExecute_status (s : State) : s.afterExecute.status = s.status := by
  rcases s.afterExecute_cases with ⟨-, heq⟩ | ⟨_, -, heq⟩ <;> simp [heq]

/-- The Decoder has one reason to reject an opcode (30_encoding.md R57). -/
theorem eq_unrecognised_of_firstMatch {op : Opcode} {r : DecodeReject} {rows : List Row}
    (h : firstMatch op rows = .error r) : r = .unrecognised op := by
  induction rows with
  | nil => cases h; rfl
  | cons q qs ih =>
    unfold firstMatch at h
    split at h
    · cases h
    · exact ih h

/-- A running machine always takes its step (R109). -/
theorem exists_step_of_running (hr : s.status = .running) : ∃ t, step s = .next t := by
  by_cases hf : s.fetchable
  · rcases hd : decodeOpcode s.opcodeAtPc with r | i
    · exact ⟨_, cycle_of_undecodable hr hf hd⟩
    · obtain ⟨u, hx, -⟩ := exec_writes i s.clearSkip
      exact ⟨_, step_of_exec ⟨hr, hf, hd⟩ hx⟩
  · exact ⟨_, cycle_of_not_fetchable hr hf⟩

/-- Settles O20: the three ways a step can go, fetch, decode and execute, each raise their own part of the list. -/
theorem faultsAreExactlyTheListedOnes : Obligations.FaultsAreExactlyTheListedOnes := by
  refine ⟨fun _ _ _ _ _ => ⟨rfl, rfl, rfl, rfl, rfl, rfl⟩, fun s hr => ?_⟩
  obtain ⟨t, ht⟩ := exists_step_of_running hr
  refine ⟨t, ht, fun e => ?_⟩
  obtain ⟨-, ⟨hf, rfl⟩ | ⟨hf, ⟨r, hd⟩, rfl⟩ | ⟨i, u, ⟨-, hf, hd⟩, hx, rfl⟩⟩ := cycle_cases ht <;>
    rw [State.fetchable] at hf
  · have hout : 0xFFF < s.pc.toNat + 1 := Nat.not_le.mp hf
    simp [hf, hout, eq_comm]
  · have hin : ¬0xFFF < s.pc.toNat + 1 := Nat.not_lt.mpr hf
    obtain rfl := eq_unrecognised_of_firstMatch hd
    simp [hf, hin, hd, eq_comm]
  · have hin : ¬0xFFF < s.pc.toNat + 1 := Nat.not_lt.mpr hf
    rw [State.afterExecute_status, exec_faulted_iff (s := s.clearSkip) hr hx, execFault_eq_some_iff]
    simp [hf, hin, hd]

/-- Settles O19: wherever the fault is raised, it is recorded in the state the stage began with, which with no pending
skip request is the state before the step. -/
theorem faultsArePrecise : Obligations.FaultsArePrecise := by
  intro s t e hskip h ht
  obtain ⟨hr, ⟨-, rfl⟩ | ⟨-, -, rfl⟩ | ⟨i, u, -, hx, rfl⟩⟩ := cycle_cases h
  · cases ht; rfl
  · cases ht; rfl
  · rw [State.afterExecute_status] at ht
    rw [State.clearSkip_of_not_skip hskip] at hx
    rw [State.afterExecute_of_faulted ht]
    obtain ⟨e', -, rfl⟩ | ⟨-, hu⟩ := exec_fault_cases hx
    · cases ht; rfl
    · simp [hu, hr] at ht

/-! ### After a fault (R109, R114) -/

/-- No step and no host move changes the status of a faulted machine. -/
theorem move_keeps_faulted {m : Move} (hs : s.status = .faulted e) (h : move m s = .next t) :
    t.status = .faulted e := by
  cases m with
  | step =>
    have hstop : step s = .fault (.halted e) := cycle_of_faulted hs
    cases hstop.symm.trans h
  | writeTimers d u =>
    obtain ⟨-, rfl⟩ := hostWriteTimers_cases h
    exact hs

/-- Settles O18: the first step of a run stops, and every move of the whole system keeps the fault. -/
theorem faultedMachineTakesNoStep : Obligations.FaultedMachineTakesNoStep := by
  intro s e hs
  have hstop : step s = .fault (.halted e) := cycle_of_faulted hs
  exact ⟨hstop, fun k => by rw [core_run_succ, hstop], fun _ _ h =>
    runMoves_induction (P := fun u => u.status = .faulted e) (fun _ _ _ => move_keeps_faulted) hs h⟩

/-! ### Who changes the timers (R118) -/

theorem writes_advance (s : State) : Writes [.pc, .skip] s s.advance where
  mem := rfl
  frame := ⟨fun p hp => by cases p <;> simp_all [Part.same], rfl⟩

/-- The advance, where it happens, writes pc and consumes the skip request (40_step_cycle.md R69). -/
theorem writes_afterExecute (s : State) : Writes [.pc, .skip] s s.afterExecute := by
  rcases s.afterExecute_cases with ⟨-, heq⟩ | ⟨_, -, heq⟩ <;> rw [heq]
  · exact writes_advance s
  · exact ⟨rfl, fun p _ => by cases p <;> simp [Part.same], rfl⟩

/-- What a step changes beside pc, the skip request and the status, the instruction it ran is listed to write. -/
theorem mem_mayWrite_of_step_changes {p : Part} (h : step s = .next t) (hp : p ∉ [.pc, .skip, .status])
    (hchange : ¬p.same s t) : ∃ i, decodeOpcode s.opcodeAtPc = .ok i ∧ p ∈ mayWrite s.clearSkip i := by
  have hfault (e) : p.same s (s.faultedWith e) := (writes_faultedWith s e).frame.1 p (by simp_all)
  obtain ⟨-, ⟨-, rfl⟩ | ⟨-, -, rfl⟩ | ⟨i, u, ⟨-, -, hd⟩, hx, rfl⟩⟩ := cycle_cases h
  · exact absurd (hfault _) hchange
  · exact absurd (hfault _) hchange
  · refine ⟨i, hd, ?_⟩
    by_contra hn
    have hclear : p.same s s.clearSkip := by cases p <;> simp_all [Part.same]
    have hexec : p.same s.clearSkip u := (Writes.of_exec hx).frame.1 p hn
    have hadvance : p.same u u.afterExecute := (writes_afterExecute u).frame.1 p (by simp_all)
    exact hchange ((hclear.trans hexec).trans hadvance)

theorem eq_ldDtVx_of_dt_mem_mayWrite (h : .dt ∈ mayWrite s i) : ∃ f, i = .ldDtVx f := by
  cases i with
  | ldDtVx f => exact ⟨f, rfl⟩
  | jpV0 f => simp only [mayWrite] at h; split at h <;> simp at h
  | _ => simp [mayWrite] at h

theorem eq_ldStVx_of_st_mem_mayWrite (h : .st ∈ mayWrite s i) : ∃ f, i = .ldStVx f := by
  cases i with
  | ldStVx f => exact ⟨f, rfl⟩
  | jpV0 f => simp only [mayWrite] at h; split at h <;> simp at h
  | _ => simp [mayWrite] at h

/-- Settles O3: the host's move is the two timer writes, and LD_DT_Vx and LD_ST_Vx are the only kinds listed to write
DT and ST. -/
theorem hostMayRewriteTheTimers : Obligations.HostMayRewriteTheTimers := by
  refine ⟨fun s d u hopen => ?_, fun s d u hclosed => ?_, fun s t h => ⟨fun hdt => ?_, fun hst => ?_⟩⟩
  · exact ⟨(s.setDt d).setSt u, if_pos hopen, rfl, rfl, ((writes_setDt s d).trans (writes_setSt _ u)).frame⟩
  · exact if_neg (by simp [hclosed])
  · obtain ⟨i, hd, hi⟩ := mem_mayWrite_of_step_changes (p := .dt) h (by simp) hdt
    obtain ⟨f, rfl⟩ := eq_ldDtVx_of_dt_mem_mayWrite hi
    exact ⟨f, hd⟩
  · obtain ⟨i, hd, hi⟩ := mem_mayWrite_of_step_changes (p := .st) h (by simp) hst
    obtain ⟨f, rfl⟩ := eq_ldStVx_of_st_mem_mayWrite hi
    exact ⟨f, hd⟩

end Sys2Proof.Machine

/-! SUPPORT. The boot sequence (70_reset_and_hazards.md R125 to R128): what it installs and when it refuses (O2). Every
state that a booted system reaches has the booted image and parameters and meets the invariant (O6). -/

namespace Sys2Proof.Machine

variable {p : Params} {font rom : List Nat} {s t : State}

/-! ### The booted state -/

/-- Memory after the two install operations, FONT at 0x050 and ROM at 0x200. -/
def bootImage (font rom : List Nat) : Memory :=
  (State.reset.mem.install fontBase font).install romBase rom

theorem boot_of_fits (hfont : fontBase + font.length ≤ romBase) (hrom : romBase + rom.length ≤ Config.memSize) :
    boot p font rom = .next { State.reset with mem := bootImage font rom, params := p } := by
  simp only [boot, loadFont, loadRom, if_pos hfont, if_pos hrom, bootImage]

theorem boot_of_font_too_long (hfont : romBase < fontBase + font.length) :
    boot p font rom = .refused .fontTooLong := by
  simp only [boot, loadFont, if_neg (Nat.not_le.mpr hfont)]

theorem boot_of_rom_too_long (hfont : fontBase + font.length ≤ romBase)
    (hrom : Config.memSize < romBase + rom.length) : boot p font rom = .refused .romTooLong := by
  simp only [boot, loadFont, loadRom, if_pos hfont, if_neg (Nat.not_le.mpr hrom)]

/-- A launch that succeeds was within both bounds (R128). -/
theorem boot_next_cases (h : boot p font rom = .next s) :
    fontBase + font.length ≤ romBase ∧ romBase + rom.length ≤ Config.memSize ∧
      s = { State.reset with mem := bootImage font rom, params := p } := by
  rcases Nat.lt_or_ge romBase (fontBase + font.length) with hfont | hfont
  · cases (boot_of_font_too_long hfont).symm.trans h
  rcases Nat.lt_or_ge Config.memSize (romBase + rom.length) with hrom | hrom
  · cases (boot_of_rom_too_long hfont hrom).symm.trans h
  · cases (boot_of_fits hfont hrom).symm.trans h
    exact ⟨hfont, hrom, rfl⟩

/-! ### The installed image -/

/-- The font stays below the program, so it is inside the address space too. -/
theorem font_fits_memory (hfont : fontBase + font.length ≤ romBase) : fontBase + font.length ≤ Config.memSize :=
  hfont.trans (by decide)

theorem bootImage_wf (hfont : fontBase + font.length ≤ romBase) (hrom : romBase + rom.length ≤ Config.memSize) :
    (bootImage font rom).wf = true :=
  Memory.install_wf (Memory.install_wf Memory.reset_wf (font_fits_memory hfont)) hrom

/-- An address reads as its program byte, else as its font byte, else as at creation. -/
theorem read_bootImage (hfont : fontBase + font.length ≤ romBase) (hrom : romBase + rom.length ≤ Config.memSize)
    (a : Nat) : (bootImage font rom).read a =
      if hr : romBase ≤ a ∧ a < romBase + rom.length then BitVec.ofNat 8 (rom[a - romBase]'(by omega))
      else if hf : fontBase ≤ a ∧ a < fontBase + font.length then BitVec.ofNat 8 (font[a - fontBase]'(by omega))
      else 0 := by
  rw [bootImage, Memory.read_install (Memory.install_wf Memory.reset_wf (font_fits_memory hfont)) hrom,
    Memory.read_install Memory.reset_wf (font_fits_memory hfont)]
  rfl

/-- Storing a byte already takes it modulo 256 (R126, R127). -/
theorem byte_ofNat_mod (b : Nat) : BitVec.ofNat 8 (b % 256) = BitVec.ofNat 8 b :=
  BitVec.eq_of_toNat_eq (by simp)

/-- Settles O2: the three launches that R128 tells apart; the font ends where the program begins at the latest. -/
theorem bootInstallsFontAndRom : Obligations.BootInstallsFontAndRom := by
  refine fun p font rom => ⟨fun hfont hrom => ?_, boot_of_font_too_long, boot_of_rom_too_long⟩
  have hread := read_bootImage hfont hrom
  refine ⟨_, boot_of_fits hfont hrom, fun k hk => ?_, fun k hk => ?_, fun a ha => ?_,
    bootImage_wf hfont hrom, rfl, rfl⟩
  · have hbelow : ¬(0x200 ≤ 0x050 + k ∧ 0x050 + k < 0x200 + rom.length) := by omega
    simp [hread, hbelow, hk, byte_ofNat_mod]
  · simp [hread, hk, byte_ofNat_mod]
  · have hr : ¬(0x200 ≤ a ∧ a < 0x200 + rom.length) := by omega
    have hf : ¬(0x050 ≤ a ∧ a < 0x050 + font.length) := by omega
    exact (hread a).trans ((dif_neg hr).trans (dif_neg hf))

/-! ### Every reachable state -/

/-- The invariant speaks of memory, and of parts that the boot sequence leaves as created. -/
theorem boot_inv (h : boot p font rom = .next s) : s.Inv := by
  obtain ⟨hfont, hrom, rfl⟩ := boot_next_cases h
  exact { invariantHoldsAtReset with mem := bootImage_wf hfont hrom }

/-- No step changes the parameters (00_scope.md R5). -/
theorem step_params (h : step s = .next t) : t.params = s.params := by
  obtain ⟨-, ⟨-, rfl⟩ | ⟨-, -, rfl⟩ | ⟨i, u, -, hx, rfl⟩⟩ := cycle_cases h
  · rfl
  · rfl
  · exact (writes_afterExecute u).frame.2.trans (Writes.of_exec hx).frame.2

/-- No move changes memory or the parameters (20_memory.md R31, 60_exceptions.md R118). -/
theorem move_mem_params {m : Move} (h : move m s = .next t) : t.mem = s.mem ∧ t.params = s.params := by
  cases m with
  | step => exact ⟨step_mem h, step_params h⟩
  | writeTimers d u =>
    obtain ⟨-, rfl⟩ := hostWriteTimers_cases h
    exact ⟨rfl, rfl⟩

/-- Settles O6: boot establishes the invariant, and every move keeps it, memory and the parameters. -/
theorem everyReachableStateKeepsInvariant : Obligations.EveryReachableStateKeepsInvariant := by
  intro p font rom s t ms hboot hrun
  have hparams : s.params = p := by
    obtain ⟨-, -, rfl⟩ := boot_next_cases hboot
    rfl
  have kept (m : Move) (u w : State) (hu : u.Inv ∧ u.mem = s.mem ∧ u.params = p) (h : move m u = .next w) :
      w.Inv ∧ w.mem = s.mem ∧ w.params = p := by
    obtain ⟨hinv, hmem, hps⟩ := hu
    obtain ⟨hmem', hps'⟩ := move_mem_params h
    exact ⟨everyMoveKeepsInvariant m u w hinv h, hmem'.trans hmem, hps'.trans hps⟩
  exact runMoves_induction kept ⟨boot_inv hboot, rfl, hparams⟩ hrun

end Sys2Proof.Machine

/-! SUPPORT. The ends of a run (70_reset_and_hazards.md R130): a parked state is a fixed point of the step (O23), and a
run ends in exactly one way (O48), because the state after k steps determines the end. -/

namespace Sys2Proof.Machine

variable {s t : State} {j k : Nat} {e : CoreFault}

/-! ### Parked states (30_encoding.md R61) -/

/-- A parked machine stands at the jump to the address before its own. -/
theorem State.parked.atInstr_jp (h : s.parked) : s.atInstr (.jp (fieldsOf s.opcodeAtPc)) := by
  obtain ⟨hrun, -, hhigh, hop⟩ := h
  have hrow : s.opcodeAtPc &&& 0xF000 = 0x1000 := BitVec.eq_of_toNat_eq <| by
    have hpattern : (0x1000 : Opcode).toNat = 0x1000 := rfl
    rw [toNat_and_F000, hop, hpattern]
    omega
  exact ⟨hrun, Nat.succ_le_succ hhigh, decodeOpcode_eq_ok_iff.mpr ⟨rfl, hrow⟩⟩

theorem State.advance_setPc_of_add_two {w : Word} (hskip : s.skip = false) (hw : w + 2 = s.pc) :
    (s.setPc w).advance = s := by
  cases s
  simp_all [State.advance, State.setPc]

/-- The jump goes to pc - 2, and the advance returns to pc (40_step_cycle.md R69). -/
theorem step_of_parked (h : s.parked) (hskip : s.skip = false) : step s = .next s := by
  have hback : absolute (fieldsOf s.opcodeAtPc) + 2 = s.pc := by
    obtain ⟨-, hlow, hhigh, hop⟩ := h
    rw [absolute_add_two, fieldsOf_nnn_toNat, hop]
    apply BitVec.eq_of_toNat_eq
    rw [BitVec.toNat_ofNat]
    omega
  rw [step_jp h.atInstr_jp, State.clearSkip_of_not_skip hskip, State.advance_setPc_of_add_two hskip hback]

/-- Settles O23. -/
theorem parkedStateIsFixed : Obligations.ParkedStateIsFixed := by
  intro s k hparked hskip
  induction k with
  | zero => exact core_run_zero s
  | succ k ih => rw [core_run_succ, step_of_parked hparked hskip]; exact ih

/-! ### The state determines the end -/

/-- The end of a run of k steps that leaves this state. -/
def State.endAfter (t : State) [Decidable t.parked] (k : Nat) : RunEnd :=
  match t.status with
  | .faulted e => .faulted e
  | .running => if t.parked then .parked else .stopped k

theorem State.endAfter_of_faulted [Decidable t.parked] (h : t.status = .faulted e) :
    t.endAfter k = .faulted e := by
  simp [State.endAfter, h]

theorem State.endAfter_of_parked [Decidable t.parked] (h : t.parked) : t.endAfter k = .parked := by
  simp [State.endAfter, h.1, h]

theorem State.endAfter_of_running [Decidable t.parked] (hr : t.status = .running) (h : ¬t.parked) :
    t.endAfter k = .stopped k := by
  simp [State.endAfter, hr, h]

/-- A run has one end, read off the state it leaves: PARKED and STOPPED part the running states (log 29). -/
theorem endsIn_iff [Decidable t.parked] {e : RunEnd} :
    EndsIn k s t e ↔ Sys2Proof.core.run k s = .next t ∧ e = t.endAfter k := by
  rcases hst : t.status with _ | c
  · by_cases hp : t.parked
    · rw [State.endAfter_of_parked hp]
      cases e <;> simp [EndsIn, hst, hp]
    · rw [State.endAfter_of_running hst hp]
      cases e <;> simp [EndsIn, hst, hp, and_comm]
  · rw [State.endAfter_of_faulted hst]
    have hp : ¬t.parked := fun ⟨hr, _⟩ => by simp [hst] at hr
    cases e <;> simp [EndsIn, hst, hp, eq_comm]

/-! ### Runs up to a fault -/

/-- A longer run is the rest of the run from where the shorter one ended. -/
theorem core_run_add (h : Sys2Proof.core.run j s = .next t) (m : Nat) :
    Sys2Proof.core.run (j + m) s = Sys2Proof.core.run m t := by
  induction j generalizing s with
  | zero => cases h; rw [Nat.zero_add]
  | succ j ih =>
    obtain ⟨u, hstep, hrest⟩ := core_run_succ_next h
    rw [Nat.succ_add, core_run_succ, hstep]
    exact ih hrest

/-- A run of a running machine takes all its steps, or fewer and has faulted (60_exceptions.md R109). -/
theorem exists_core_run_of_running (hr : s.status = .running) (k : Nat) :
    ∃ j t, j ≤ k ∧ Sys2Proof.core.run j s = .next t ∧ (j = k ∨ ∃ e, t.status = .faulted e) := by
  induction k generalizing s with
  | zero => exact ⟨0, s, Nat.le_refl 0, core_run_zero s, .inl rfl⟩
  | succ k ih =>
    obtain ⟨u, hu⟩ := exists_step_of_running hr
    have from_u (j : Nat) : Sys2Proof.core.run (j + 1) s = Sys2Proof.core.run j u := by rw [core_run_succ, hu]
    rcases hst : u.status with _ | e
    · obtain ⟨j, t, hjk, hrun, hend⟩ := ih hst
      exact ⟨j + 1, t, Nat.succ_le_succ hjk, (from_u j).trans hrun, hend.imp_left (congrArg (· + 1))⟩
    · exact ⟨1, u, by omega, from_u 0, .inr ⟨e, hst⟩⟩

/-- No run goes on from a fault (R109). -/
theorem le_of_core_run_of_faulted {u : State} (hj : Sys2Proof.core.run j s = .next t) (ht : t.status = .faulted e)
    (hk : Sys2Proof.core.run k s = .next u) : k ≤ j := by
  by_contra hlt
  obtain ⟨m, rfl⟩ := Nat.exists_eq_add_of_lt (Nat.not_le.mp hlt)
  obtain ⟨-, hstop, -⟩ := faultedMachineTakesNoStep t e ht
  cases (hstop m).symm.trans ((core_run_add hj (m + 1)).symm.trans hk)

/-- Settles O48: the run goes on as long as it can, and the state it leaves determines its end. -/
theorem runEndsInExactlyOneWay : Obligations.RunEndsInExactlyOneWay := by
  classical
  refine ⟨fun k s hr => ?_, fun k s t e e' h h' => ?_, fun j k s t u c e hj hk => ?_⟩
  · obtain ⟨j, t, hjk, hrun, hend⟩ := exists_core_run_of_running hr k
    exact ⟨j, t, t.endAfter j, hjk, endsIn_iff.mpr ⟨hrun, rfl⟩,
      hend.imp_right fun ⟨c, hc⟩ => ⟨c, State.endAfter_of_faulted hc⟩⟩
  · obtain ⟨-, rfl⟩ := endsIn_iff.mp h
    obtain ⟨-, rfl⟩ := endsIn_iff.mp h'
    rfl
  · obtain ⟨hshort, hfault⟩ := hj
    obtain ⟨hlong, -⟩ := endsIn_iff.mp hk
    exact le_of_core_run_of_faulted hshort hfault hlong

end Sys2Proof.Machine
